-- ==== Sys2Proof/Word.lean ====
section
/-! DEFINITION. The words of the varint CORE block: the 64-bit values of its buses and registers, the 8-bit byte of its channels, the 7-bit payload of a byte, and the two parts of the command port's bits. -/

namespace Sys2Proof

/-- A 64-bit value: the operand `cmd_value`, `acc`, `x`, `result` (10_state.md R20, 30_encoding.md R70). -/
abbrev Word := BitVec 64

/-- A byte of a channel, bits 7 down to 0 (00_scope.md R9). -/
abbrev Byte := BitVec 8

/-- The payload `b[6:0]` of a byte (30_encoding.md R75). -/
abbrev Payload := BitVec 7

/-- The command word `CW = {op, wsel}` (30_encoding.md R71). -/
abbrev CmdWord := BitVec 4

/-- A width-select code (30_encoding.md R73). -/
abbrev WidthCode := BitVec 2

/-- An I/O error code. Its width `ERR_W` is an OPEN parameter and the block never computes with a code
(00_scope.md R7, 10_state.md R29), so the model holds the number the code's bits denote; that it stays below
`2 ^ ERR_W` is a clause of the invariant, for every `ERR_W` (log entry 3). -/
abbrev IoCode := Nat

end Sys2Proof
end

