-- ==== Sys2Proof/Config.lean ====
section
/-! DEFINITION. The parameters of the block (00_scope.md R7): the fixed ones as constants, the OPEN ones as a record that whatever depends on them takes as an argument. -/

namespace Sys2Proof

/-- `NATIVE_W`, the width of the native unsigned type: OPEN, one of 32 and 64 (00_scope.md R7, R8). -/
inductive NativeWidth where
  | w32
  | w64
deriving DecidableEq, Repr

/-- The OPEN parameters of 00_scope.md R7. Nothing in the model fixes one of them: the assembler takes
`nativeW`, the invariant takes `errW`, a list of blocks has any length. -/
structure OpenParams where
  /-- `NATIVE_W`. -/
  nativeW : NativeWidth
  /-- `ERR_W`. -/
  errW : Nat
  /-- The number of block instances. -/
  blocks : Nat
deriving DecidableEq, Repr

/-- The bounds R7 sets on the OPEN parameters. -/
abbrev OpenParams.Valid (c : OpenParams) : Prop := 1 ≤ c.errW ∧ 1 ≤ c.blocks

/-- `ACC_W`, the accumulator width. -/
def Config.accW : Nat := 64

/-- `MAX_LEN`, the longest encoding in bytes. -/
def Config.maxLen : Nat := 10

/-- The value at which the 4-bit `count` saturates. -/
def Config.countMax : Nat := 15

/-- The value at which the 4-bit `idx` saturates; it stands for "10 or more" (10_state.md R24). -/
def Config.idxMax : Nat := 10

end Sys2Proof
end

