-- ==== Sys2Proof/Syntax.lean ====
section
/-! DEFINITION. The commands of the block, one constructor per row of spec/opcode_table.json, and the lines of the host's assembler (30_encoding.md R82). -/

namespace Sys2Proof

/-- A target width W of ENC and DEC (30_encoding.md R73). -/
inductive Width where
  | w8
  | w16
  | w32
  | w64
deriving DecidableEq, Repr

/-- The number W a width stands for. -/
def Width.bits : Width → Nat
  | .w8 => 8
  | .w16 => 16
  | .w32 => 32
  | .w64 => 64

/-- A command as the port presents it: the operation (and for ENC and DEC the width) is the constructor, `value`
is `cmd_value`, and `wsel` is kept where the operation ignores it as a width but the block still latches it
(40_length.md R100, 60_exceptions.md R184). -/
inductive Instr where
  /-- LEN, CW 0x0 to 0x3 (R100). -/
  | len (wsel : WidthCode) (value : Word)
  /-- ENC.U8, CW 0x4 (R156). -/
  | encU8 (value : Word)
  /-- ENC.U16, CW 0x5 (R157). -/
  | encU16 (value : Word)
  /-- ENC.U32, CW 0x6 (R158). -/
  | encU32 (value : Word)
  /-- ENC.U64, CW 0x7 (R159). -/
  | encU64 (value : Word)
  /-- DEC.U8, CW 0x8 (R131); the operand is ignored. -/
  | decU8 (value : Word)
  /-- DEC.U16, CW 0x9 (R132). -/
  | decU16 (value : Word)
  /-- DEC.U32, CW 0xA (R133). -/
  | decU32 (value : Word)
  /-- DEC.U64, CW 0xB (R134). -/
  | decU64 (value : Word)
  /-- The reserved words, CW 0xC to 0xF (R184). -/
  | illegal (wsel : WidthCode) (value : Word)
deriving DecidableEq, Repr

/-- The ENC command of a width: ENC.U8, ENC.U16, ENC.U32 or ENC.U64. -/
def Instr.enc : Width → Word → Instr
  | .w8 => .encU8
  | .w16 => .encU16
  | .w32 => .encU32
  | .w64 => .encU64

/-- The DEC command of a width: DEC.U8, DEC.U16, DEC.U32 or DEC.U64. -/
def Instr.dec : Width → Word → Instr
  | .w8 => .decU8
  | .w16 => .decU16
  | .w32 => .decU32
  | .w64 => .decU64

/-- One line of the host's assembler (30_encoding.md R82). Operands are the numbers as written, before any
range check. -/
inductive AsmLine where
  | len (v : Nat)
  | enc (w : Width) (v : Nat)
  | dec (w : Width)
  /-- The pseudo-instruction ENC.USIZE. -/
  | encUsize (v : Nat)
  /-- The pseudo-instruction DEC.USIZE. -/
  | decUsize
  /-- The raw form `.cw <n>, <v>`. -/
  | cw (n v : Nat)
deriving DecidableEq, Repr

end Sys2Proof
end

