-- ==== Sys2Proof/WellFormed.lean ====
section
/-! DEFINITION. The checks on commands and assembler lines. Every term of Instr is a command the block accepts (30_encoding.md R80, R83: no command word is invalid, and operand bits above W are ignored): the field types carry the port's widths. What the spec does check is the assembler's: which lines it refuses (R83), and which commands have a mnemonic form (R82). -/

namespace Sys2Proof

/-- The width that the native unsigned type has (00_scope.md R8, 30_encoding.md R73). -/
def NativeWidth.width : NativeWidth → Width
  | .w32 => .w32
  | .w64 => .w64

/-- An assembler line whose numbers are in range (30_encoding.md R83). -/
def AsmLine.wf (native : NativeWidth) : AsmLine → Bool
  | .len v => v < 2 ^ 64
  | .enc w v => v < 2 ^ w.bits
  | .dec _ => true
  | .encUsize v => v < 2 ^ native.width.bits
  | .decUsize => true
  | .cw n v => n < 16 && v < 2 ^ 64

/-- A command that a mnemonic of R82 writes; any other command is written by the raw form `.cw` only. -/
def Instr.hasMnemonicForm : Instr → Bool
  | .len wsel _ => wsel == 0#2
  | .encU8 v => v.toNat < 2 ^ 8
  | .encU16 v => v.toNat < 2 ^ 16
  | .encU32 v => v.toNat < 2 ^ 32
  | .encU64 _ => true
  | .decU8 v => v == 0#64
  | .decU16 v => v == 0#64
  | .decU32 v => v == 0#64
  | .decU64 v => v == 0#64
  | .illegal _ _ => false

end Sys2Proof
end

