-- ==== Sys2Proof/Decode.lean ====
section
/-! DEFINITION. The command map of 30_encoding.md (R71 to R73, R80): a decoder that is total on every command word and operand, the table of opcode_table.json as mask and match rows, the encoder, and the refusals of a word or operand too wide for the port. -/

namespace Sys2Proof

/-- The operation codes (30_encoding.md R72). -/
inductive Op where
  | len
  | enc
  | dec
  | reserved
deriving DecidableEq, Repr

/-- `op = CW[3:2]` as an operation (R71, R72). -/
def Op.ofCode (c : BitVec 2) : Op :=
  match c.toNat with
  | 0 => .len
  | 1 => .enc
  | 2 => .dec
  | _ => .reserved

/-- The code of an operation (R72). -/
def Op.code : Op → BitVec 2
  | .len => 0b00#2
  | .enc => 0b01#2
  | .dec => 0b10#2
  | .reserved => 0b11#2

/-- `WIDTH(wsel)` (30_encoding.md R73). -/
def Width.ofCode (c : WidthCode) : Width :=
  match c.toNat with
  | 0 => .w8
  | 1 => .w16
  | 2 => .w32
  | _ => .w64

/-- The width-select code of a width (R73). -/
def Width.code : Width → WidthCode
  | .w8 => 0b00#2
  | .w16 => 0b01#2
  | .w32 => 0b10#2
  | .w64 => 0b11#2

/-- `CW[3:2]` (30_encoding.md R71). -/
def CmdWord.op (cw : CmdWord) : BitVec 2 := cw.extractLsb' 2 2

/-- `CW[1:0]` (30_encoding.md R71). -/
def CmdWord.wsel (cw : CmdWord) : WidthCode := cw.extractLsb' 0 2

/-- `CW = {cmd_op, cmd_wsel}` (30_encoding.md R71). -/
def CmdWord.make (op : BitVec 2) (wsel : WidthCode) : CmdWord := op ++ wsel

/-- The command that a command word and an operand select; total, since every word has a meaning (R80). -/
def decode (cw : CmdWord) (value : Word) : Instr :=
  match Op.ofCode (CmdWord.op cw) with
  | .len => .len (CmdWord.wsel cw) value
  | .enc => Instr.enc (Width.ofCode (CmdWord.wsel cw)) value
  | .dec => Instr.dec (Width.ofCode (CmdWord.wsel cw)) value
  | .reserved => .illegal (CmdWord.wsel cw) value

/-- Why a number is not a command of the port: it does not fit the port's lines (30_encoding.md R83). -/
inductive DecodeReject where
  /-- The command word is outside 0 to 15. -/
  | wordOutsideFourBits
  /-- The operand is 2 ^ 64 or more. -/
  | operandOutsideSixtyFourBits
deriving DecidableEq, Repr

/-- The decoder on plain numbers: it rejects by name what the port's 4 and 64 lines cannot carry (R83). -/
def decodeNumbers (word operand : Nat) : Except DecodeReject Instr :=
  if 16 ≤ word then .error .wordOutsideFourBits
  else if 2 ^ 64 ≤ operand then .error .operandOutsideSixtyFourBits
  else .ok (decode (BitVec.ofNat 4 word) (BitVec.ofNat 64 operand))

/-- The host's entry: the low `nbits` bits of `w` are the command word and the operand lines are 0 (the table gives
them no bits). A word the four lines cannot carry decodes to nothing. -/
def decodeTableWord (nbits w : Nat) : Option Instr :=
  (decodeNumbers (w % 2 ^ nbits) 0).toOption

/-! ### The encoder -/

/-- The command word and operand that present a command on the port (30_encoding.md R71 to R73, R80). -/
def encode : Instr → CmdWord × Word
  | .len wsel v => (CmdWord.make Op.len.code wsel, v)
  | .encU8 v => (CmdWord.make Op.enc.code Width.w8.code, v)
  | .encU16 v => (CmdWord.make Op.enc.code Width.w16.code, v)
  | .encU32 v => (CmdWord.make Op.enc.code Width.w32.code, v)
  | .encU64 v => (CmdWord.make Op.enc.code Width.w64.code, v)
  | .decU8 v => (CmdWord.make Op.dec.code Width.w8.code, v)
  | .decU16 v => (CmdWord.make Op.dec.code Width.w16.code, v)
  | .decU32 v => (CmdWord.make Op.dec.code Width.w32.code, v)
  | .decU64 v => (CmdWord.make Op.dec.code Width.w64.code, v)
  | .illegal wsel v => (CmdWord.make Op.reserved.code wsel, v)

/-! ### The opcode table, as data -/

/-- One row of spec/opcode_table.json. -/
structure OpcodeRow where
  mnemonic : String
  matchBits : CmdWord
  maskBits : CmdWord
deriving DecidableEq, Repr

/-- A command word is one of the row's words. -/
def OpcodeRow.covers (r : OpcodeRow) (cw : CmdWord) : Bool := (cw &&& r.maskBits) == r.matchBits

/-- The ten rows of spec/opcode_table.json with their match and mask, in the table's order. -/
def opcodeTable : List OpcodeRow :=
  [⟨"LEN", 0x0#4, 0xC#4⟩,
   ⟨"ENC.U8", 0x4#4, 0xF#4⟩, ⟨"ENC.U16", 0x5#4, 0xF#4⟩, ⟨"ENC.U32", 0x6#4, 0xF#4⟩, ⟨"ENC.U64", 0x7#4, 0xF#4⟩,
   ⟨"DEC.U8", 0x8#4, 0xF#4⟩, ⟨"DEC.U16", 0x9#4, 0xF#4⟩, ⟨"DEC.U32", 0xA#4, 0xF#4⟩, ⟨"DEC.U64", 0xB#4, 0xF#4⟩,
   ⟨"ILLEGAL", 0xC#4, 0xC#4⟩]

/-- The mnemonic of a command, as the table spells it. -/
def Instr.mnemonic : Instr → String
  | .len _ _ => "LEN"
  | .encU8 _ => "ENC.U8"
  | .encU16 _ => "ENC.U16"
  | .encU32 _ => "ENC.U32"
  | .encU64 _ => "ENC.U64"
  | .decU8 _ => "DEC.U8"
  | .decU16 _ => "DEC.U16"
  | .decU32 _ => "DEC.U32"
  | .decU64 _ => "DEC.U64"
  | .illegal _ _ => "ILLEGAL"

end Sys2Proof
end

