-- ==== Sys2Proof/Machine/State.lean ====
section
/-! DEFINITION. The state of the block: the ten registers of 10_state.md R20, and beside them the environment the step reads and writes (the port samples to come, the bytes moved), which R20 gives to the outside and one deterministic step needs as data (log entry 1). -/

namespace Sys2Proof.Machine

/-- `phase` (10_state.md R21): which unit is executing a command. `unused` is the code 0b11. -/
inductive Phase where
  | idle
  | decRun
  | encRun
  | unused
deriving DecidableEq, Repr

/-- `status` (10_state.md R28, 60_exceptions.md R180): the outcome of the last completed command. -/
inductive Status where
  | ok
  | overflow
  | ioErr
  | illegalCmd
deriving DecidableEq, Repr

/-- Every input signal of the block at one step: reset (70_reset_and_hazards.md R200), the command port
(30_encoding.md R70), the source's and the sink's signals (20_memory.md R53). -/
structure Ports where
  rst : Bool
  cmdValid : Bool
  cmdOp : BitVec 2
  cmdWsel : WidthCode
  cmdValue : Word
  inValid : Bool
  inData : Byte
  inFail : Bool
  inCode : IoCode
  outReady : Bool
  outFail : Bool
  outCode : IoCode
deriving DecidableEq, Repr

/-- The sample in which nobody drives anything: a stall in every phase. -/
def Ports.quiet : Ports where
  rst := false
  cmdValid := false
  cmdOp := 0#2
  cmdWsel := 0#2
  cmdValue := 0#64
  inValid := false
  inData := 0#8
  inFail := false
  inCode := 0
  outReady := false
  outFail := false
  outCode := 0

/-- The machine. The first ten fields are the block's complete state (10_state.md R20); the last three are the
model's own record of the environment (log entry 1). -/
structure State where
  /-- R21. -/
  phase : Phase
  /-- R22. -/
  wsel : WidthCode
  /-- R23. -/
  acc : Word
  /-- R24. -/
  idx : BitVec 4
  /-- R25. -/
  x : Word
  /-- R26. -/
  count : BitVec 4
  /-- R27. -/
  result : Word
  /-- R28. -/
  status : Status
  /-- `io_code`, R29. -/
  ioCode : IoCode
  /-- R30. -/
  done : Bool
  /-- The port samples of the steps to come, oldest first. -/
  inputs : List Ports
  /-- The bytes the source has handed over, oldest first. -/
  consumed : List Byte
  /-- The bytes the sink has acknowledged, oldest first. -/
  written : List Byte
deriving DecidableEq, Repr

/-- Why a step stops. -/
inductive Fault where
  /-- Raised by every step without reset in `phase = 0b11`, which no rule produces (10_state.md R21,
  93_implementation_defined.md X8). Safe: no run from reset reaches it. -/
  | unusedPhase
deriving DecidableEq, Repr

/-- Why an instruction has no meaning. -/
inductive Refusal where
  /-- Would be raised by an arm of `exec` whose instruction had no meaning; every arm has one. Safe. -/
  | notModelled (mnemonic : String)
deriving DecidableEq, Repr

/-- The reset values of 10_state.md R34, with nothing presented and nothing moved. -/
def State.reset : State where
  phase := .idle
  wsel := 0#2
  acc := 0#64
  idx := 0#4
  x := 0#64
  count := 0#4
  result := 0#64
  status := .ok
  ioCode := 0
  done := false
  inputs := []
  consumed := []
  written := []

end Sys2Proof.Machine
end

