-- ==== Sys2Proof/Machine/Operands.lean ====
section
/-! DEFINITION. What a command and the channels hand the block: the operand of each operation (30_encoding.md R74), the two fields of a wire byte (R75), the width functions (00_scope.md R14), and the responses sampled at the ports (20_memory.md R53). -/

namespace Sys2Proof.Machine

/-! ### Command operands -/

/-- LEN takes `cmd_value` whole (R74, C7). -/
def lenOperand (value : Word) : Word := value

/-- ENC takes `zext_64(cmd_value[W-1:0])` (R74): the bits from W up are ignored. -/
def encOperand (w : Width) (value : Word) : Word := (value.setWidth w.bits).setWidth 64

/-! ### The fields of a wire byte -/

/-- The continuation bit `b[7]` (R75). -/
def continues (b : Byte) : Bool := b.getLsbD 7

/-- The payload `b[6:0]` (R75). -/
def payload (b : Byte) : Payload := b.setWidth 7

/-! ### Width functions -/

/-- `MAXIDX(W) = ceil(W / 7) - 1` (R14). -/
def maxIdx (w : Width) : Nat := (w.bits + 6) / 7 - 1

/-- `FBITS(W) = W - 7 * MAXIDX(W)` (R14). -/
def fBits (w : Width) : Nat := w.bits - 7 * maxIdx w

/-- `FMASK(W) = 2^FBITS(W) - 1` (R14, C1). -/
def fMask (w : Width) : Nat := 2 ^ fBits w - 1

/-! ### Channel responses -/

/-- A response of the byte source (20_memory.md R51). -/
inductive SrcResponse where
  | byte (b : Byte)
  | fail (e : IoCode)
deriving DecidableEq, Repr

/-- A response of the byte sink (20_memory.md R52). -/
inductive SnkResponse where
  | ack
  | fail (e : IoCode)
deriving DecidableEq, Repr

/-- What the source's signals say to a block with `in_ready = 1` (R53); `none` is a stall. -/
def Ports.source (p : Ports) : Option SrcResponse :=
  if p.inValid then some (if p.inFail then .fail p.inCode else .byte p.inData) else none

/-- What the sink's signals say to a block with `out_valid = 1` (R53); `none` is a stall. -/
def Ports.sink (p : Ports) : Option SnkResponse :=
  if p.outReady then some (if p.outFail then .fail p.outCode else .ack) else none

/-- The command the port's signals carry (30_encoding.md R70, R71). -/
def Ports.command (p : Ports) : Instr := decode (CmdWord.make p.cmdOp p.cmdWsel) p.cmdValue

/-- The sample of this step; past the end of the list nobody drives anything. -/
def portsNow (s : State) : Ports :=
  match s.inputs with
  | [] => Ports.quiet
  | p :: _ => p

end Sys2Proof.Machine
end

