-- ==== Sys2Proof/Machine/Flags.lean ====
section
/-! DEFINITION. The block's decisions and outputs: the codes of phase and status, the output signals (10_state.md R21, 20_memory.md R53), the byte the encoder offers (42_encoder.md R151), and the decoder's two overflow checks (41_decoder.md R122, R123). -/

namespace Sys2Proof.Machine

/-- The two bits of `phase` (10_state.md R21). -/
def Phase.code : Phase → BitVec 2
  | .idle => 0b00#2
  | .decRun => 0b01#2
  | .encRun => 0b10#2
  | .unused => 0b11#2

/-- The two bits of `status` (10_state.md R28, 60_exceptions.md R180). -/
def Status.code : Status → BitVec 2
  | .ok => 0b00#2
  | .overflow => 0b01#2
  | .ioErr => 0b10#2
  | .illegalCmd => 0b11#2

/-- `busy = (phase != IDLE)` (R21). -/
def busy (s : State) : Bool := s.phase != .idle

/-- `cmd_ready = (phase == IDLE)` (R21, R70). -/
def cmdReady (s : State) : Bool := s.phase == .idle

/-- `in_ready = (phase == DEC_RUN)` (R53). -/
def inReady (s : State) : Bool := s.phase == .decRun

/-- `out_valid = (phase == ENC_RUN)` (R53). -/
def outValid (s : State) : Bool := s.phase == .encRun

/-- The continuation-bit generator `x >= 128` (42_encoder.md R151). -/
def moreGroups (x : Word) : Bool := 128 ≤ x.toNat

/-- `EncByte(x)`: seven payload bits under the continuation bit, or the last byte (R151). -/
def encByte (x : Word) : Byte :=
  if moreGroups x then (x &&& 0x7F#64).setWidth 8 ||| 0x80#8 else x.setWidth 8

/-- `out_data = EncByte(x)` (R53). -/
def outData (s : State) : Byte := encByte s.x

/-- The boundary check on a terminal byte (41_decoder.md R122): the index past `MAXIDX(W)`, or at it with a payload
above the mask. -/
def boundaryOverflow (w : Width) (i : Nat) (p : Payload) : Bool :=
  maxIdx w < i || (i == maxIdx w && fMask w < p.toNat)

/-- The defensive narrowing check `v >= 2^W` (41_decoder.md R123). -/
def narrowOverflow (w : Width) (v : Word) : Bool := 2 ^ w.bits ≤ v.toNat

end Sys2Proof.Machine
end

