-- ==== Sys2Proof/Machine/Ops.lean ====
section
/-! DEFINITION. The named operations over the registers and the channels: latching a command, moving a byte, ending a command (`finish`, which is all that an error is on this block), reset, and the passing of one port sample. -/

namespace Sys2Proof.Machine

/-! ### Counters -/

/-- `min(count + 1, 15)` (10_state.md R26). -/
def countUp (c : BitVec 4) : BitVec 4 := BitVec.ofNat 4 (min (c.toNat + 1) Config.countMax)

/-- `min(idx + 1, 10)` (10_state.md R24). -/
def idxUp (i : BitVec 4) : BitVec 4 := BitVec.ofNat 4 (min (i.toNat + 1) Config.idxMax)

/-! ### Accepting a command -/

/-- What every accepted command writes: `wsel` latched and `count` cleared (R22, R26). -/
def latchCommand (wsel : WidthCode) (s : State) : State := { s with wsel := wsel, count := 0#4 }

/-! ### Ending a command -/

/-- `finish(st, res, code)` (60_exceptions.md R181): the one way a command ends. -/
def finish (st : Status) (res : Word) (code : IoCode) (s : State) : State :=
  { s with status := st, result := res, ioCode := code, done := true, phase := .idle }

/-- `raise OverflowError` (00_scope.md R13, 60_exceptions.md R182). -/
def raiseOverflow (s : State) : State := finish .overflow 0#64 0 s

/-- `raise IoError(e)` (R13, R183): the code verbatim. -/
def raiseIo (e : IoCode) (s : State) : State := finish .ioErr 0#64 e s

/-! ### Moving a byte -/

/-- A `Byte(b)` response: the source has moved past `b`, and the byte is counted (20_memory.md R58, R26). -/
def byteTaken (b : Byte) (s : State) : State :=
  { s with count := countUp s.count, consumed := s.consumed ++ [b] }

/-- An `Ack` of `b`: the sink holds `b`, and the byte is counted (20_memory.md R59, R26). `count` saturates, which
R155 shows no run can tell from `count + 1` (log entry 4). -/
def byteWritten (b : Byte) (s : State) : State :=
  { s with count := countUp s.count, written := s.written ++ [b] }

/-! ### Reset and the passing of a sample -/

/-- Every register at its reset value; the bytes moved stay moved (70_reset_and_hazards.md R200, 10_state.md R34). -/
def resetRegisters (s : State) : State :=
  { State.reset with inputs := s.inputs, consumed := s.consumed, written := s.written }

/-- The step's sample is past. -/
def dropSample (s : State) : State := { s with inputs := s.inputs.tail }

/-- `dropSample` on the state a step goes on in. -/
def afterSample (o : Host.Outcome State Fault Refusal) : Host.Outcome State Fault Refusal :=
  match o with
  | .next s => .next (dropSample s)
  | .fault f => .fault f
  | .refused r => .refused r

/-- A sample that presents a command word and operand, with nothing else driven. -/
def Ports.present (cw : CmdWord) (value : Word) : Ports :=
  { Ports.quiet with cmdValid := true, cmdOp := CmdWord.op cw, cmdWsel := CmdWord.wsel cw, cmdValue := value }

/-- The host presents a command at the next step, to a block that is ready for it. -/
def presentCommand (cw : CmdWord) (value : Word) (s : State) : State :=
  { s with phase := .idle, inputs := Ports.present cw value :: s.inputs }

end Sys2Proof.Machine
end

