-- ==== Sys2Proof/Machine/DecodeUnit.lean ====
section
/-! DEFINITION. The decoder (41_decoder.md): acceptance, and one source response a step. -/

namespace Sys2Proof.Machine

/-- `Accum(acc, p, i)` (R126): OR the payload in at bit 7i, drop what falls at bit 64 or above; an index of 10 or more
reaches nothing. -/
def accum (acc : Word) (p : Payload) (i : Nat) : Word :=
  if i ≤ 9 then acc ||| (p.setWidth 64 <<< (7 * i)) else acc

/-- DEC acceptance (R120). `result`, `status` and `io_code` keep their values. -/
def decAccept (wsel : WidthCode) (s : State) : State :=
  { latchCommand wsel s with acc := 0#64, idx := 0#4, done := false, phase := .decRun }

/-- A continuation byte after it has been taken (R121): no check of any kind. -/
def decContinue (b : Byte) (s : State) : State :=
  { s with acc := accum s.acc (payload b) s.idx.toNat, idx := idxUp s.idx }

/-- A terminal byte after it has been taken (R122, then R123 in the same step). -/
def decTerminal (b : Byte) (s : State) : State :=
  let w := Width.ofCode s.wsel
  let v := accum s.acc (payload b) s.idx.toNat
  if boundaryOverflow w s.idx.toNat (payload b) then raiseOverflow s
  else if narrowOverflow w v then raiseOverflow s
  else finish .ok v 0 s

/-- A `Byte(b)` response: consumed whatever it leads to, its continuation bit tested first (R121, R122, R186). -/
def decByte (b : Byte) (s : State) : State :=
  if continues b then decContinue b (byteTaken b s) else decTerminal b (byteTaken b s)

/-- One step of a running DEC command (R121 to R124); without a response it is a stall (10_state.md R35). -/
def decStep (response : Option SrcResponse) (s : State) : State :=
  match response with
  | none => s
  | some (.byte b) => decByte b s
  | some (.fail e) => raiseIo e s

end Sys2Proof.Machine
end

