-- ==== Sys2Proof/Machine/EncodeUnit.lean ====
section
/-! DEFINITION. The encoder (42_encoder.md): acceptance, and one sink response a step. -/

namespace Sys2Proof.Machine

/-- ENC acceptance (R150). `result`, `status` and `io_code` keep their values. -/
def encAccept (wsel : WidthCode) (value : Word) (s : State) : State :=
  { latchCommand wsel s with x := encOperand (Width.ofCode wsel) value, done := false, phase := .encRun }

/-- The `Ack` of the offered byte, after the byte has been counted (R152): more groups to come, or the end with the
number of bytes written. -/
def encAcked (s : State) : State :=
  if moreGroups s.x then { s with x := s.x >>> 7 } else finish .ok (s.count.setWidth 64) 0 s

/-- One step of a running ENC command (R152, R153); without a response it is a stall (10_state.md R35). -/
def encStep (response : Option SnkResponse) (s : State) : State :=
  match response with
  | none => s
  | some .ack => encAcked (byteWritten (encByte s.x) s)
  | some (.fail e) => raiseIo e s

end Sys2Proof.Machine
end

