-- ==== Sys2Proof/Machine/CommandPort.lean ====
section
/-! DEFINITION. One step of the block seen from the command port (10_state.md R35, 30_encoding.md R70): in IDLE what is presented takes effect, in a running phase the running command goes on and what is presented waits. -/

namespace Sys2Proof.Machine

/-- A step without reset. `accept` is what happens in IDLE: a command's acceptance, or nothing. While a command runs
the port is not looked at (R70, R203) and the step is the running unit's, by the response its channel gives.
`phase = 0b11` is a fault (93_implementation_defined.md X8). -/
def atPort (accept : State → State) (s : State) : Host.Outcome State Fault Refusal :=
  match s.phase with
  | .idle => .next (accept s)
  | .decRun => .next (decStep (portsNow s).source s)
  | .encRun => .next (encStep (portsNow s).sink s)
  | .unused => .fault .unusedPhase

/-- A step in which no command is presented: a stall in IDLE (R35). -/
def noCommand (s : State) : Host.Outcome State Fault Refusal := atPort (fun t => t) s

/-- The whole step, given what a presented command does: reset first (70_reset_and_hazards.md R200, 60_exceptions.md
R186), else the presented command, else none; then the sample is past. -/
def stepWith (run : Instr → State → Host.Outcome State Fault Refusal) (s : State) :
    Host.Outcome State Fault Refusal :=
  if (portsNow s).rst then .next (dropSample (resetRegisters s))
  else if (portsNow s).cmdValid then afterSample (run (portsNow s).command s)
  else afterSample (noCommand s)

end Sys2Proof.Machine
end

