-- ==== Sys2Proof/Machine/Decoder.lean ====
section
/-! DEFINITION. The meanings of the four DEC commands (41_decoder.md R131 to R134): one step of a block to which the command is presented. In IDLE the command is accepted (R120), whatever the operand; the steps after that are R121 to R124. -/

namespace Sys2Proof.Machine

/-- DEC.U8 (R131); the operand is ignored (30_encoding.md R74). -/
def execDecU8 (_value : Word) (s : State) : Host.Outcome State Fault Refusal :=
  atPort (decAccept Width.w8.code) s

/-- DEC.U16 (R132). -/
def execDecU16 (_value : Word) (s : State) : Host.Outcome State Fault Refusal :=
  atPort (decAccept Width.w16.code) s

/-- DEC.U32 (R133). -/
def execDecU32 (_value : Word) (s : State) : Host.Outcome State Fault Refusal :=
  atPort (decAccept Width.w32.code) s

/-- DEC.U64 (R134). -/
def execDecU64 (_value : Word) (s : State) : Host.Outcome State Fault Refusal :=
  atPort (decAccept Width.w64.code) s

end Sys2Proof.Machine
end

