-- ==== Sys2Proof/Machine/Encoder.lean ====
section
/-! DEFINITION. The meanings of the four ENC commands (42_encoder.md R156 to R159): one step of a block to which the command is presented. In IDLE the command is accepted (R150); the steps after that are R151 to R153. -/

namespace Sys2Proof.Machine

/-- ENC.U8 (R156). -/
def execEncU8 (value : Word) (s : State) : Host.Outcome State Fault Refusal :=
  atPort (encAccept Width.w8.code value) s

/-- ENC.U16 (R157). -/
def execEncU16 (value : Word) (s : State) : Host.Outcome State Fault Refusal :=
  atPort (encAccept Width.w16.code value) s

/-- ENC.U32 (R158). -/
def execEncU32 (value : Word) (s : State) : Host.Outcome State Fault Refusal :=
  atPort (encAccept Width.w32.code value) s

/-- ENC.U64 (R159). -/
def execEncU64 (value : Word) (s : State) : Host.Outcome State Fault Refusal :=
  atPort (encAccept Width.w64.code value) s

end Sys2Proof.Machine
end

