-- ==== Sys2Proof/Machine/LengthUnit.lean ====
section
/-! DEFINITION. The length calculator (40_length.md): the 7-bit right-shift counter and what LEN does in its accepting step. -/

namespace Sys2Proof.Machine

/-- The loop of R101 from remaining value `r` with `shifts` counted so far. The first argument bounds the passes;
ten are enough for 64 bits (R101: "`s` never passes 9"). -/
def lenLoop : Nat → Word → Nat → Nat
  | 0, _, shifts => shifts + 1
  | fuel + 1, r, shifts => if 128 ≤ r.toNat then lenLoop fuel (r >>> 7) (shifts + 1) else shifts + 1

/-- `LenCalc(v)` (R101). -/
def lenCalc (v : Word) : Nat := lenLoop Config.maxLen v 0

/-- LEN in its accepting step (R100, R104): it completes there, moves no byte and leaves acc, idx and x alone. -/
def lenAccept (wsel : WidthCode) (value : Word) (s : State) : State :=
  finish .ok (BitVec.ofNat 64 (lenCalc (lenOperand value))) 0 (latchCommand wsel s)

end Sys2Proof.Machine
end

