-- ==== Sys2Proof/Machine/Length.lean ====
section
/-! DEFINITION. The meaning of LEN: one step of a block to which LEN is presented. -/

namespace Sys2Proof.Machine

/-- LEN (40_length.md R100): accepted and completed in one step; while another command runs it waits (R70). -/
def execLen (wsel : WidthCode) (value : Word) (s : State) : Host.Outcome State Fault Refusal :=
  atPort (lenAccept wsel value) s

end Sys2Proof.Machine
end

