-- ==== Sys2Proof/Machine/Reserved.lean ====
section
/-! DEFINITION. The meaning of the reserved command words (60_exceptions.md R184). -/

namespace Sys2Proof.Machine

/-- A reserved word in its accepting step: it completes with ILLEGAL_CMD and moves no byte (R184). -/
def illegalAccept (wsel : WidthCode) (s : State) : State :=
  finish .illegalCmd 0#64 0 (latchCommand wsel s)

/-- ILLEGAL (R184); the operand is ignored. -/
def execIllegal (wsel : WidthCode) (_value : Word) (s : State) : Host.Outcome State Fault Refusal :=
  atPort (illegalAccept wsel) s

end Sys2Proof.Machine
end

