-- ==== Sys2Proof/Machine/Dispatch.lean ====
section
/-! DEFINITION. One step of the block with a command presented: one arm per command. -/

namespace Sys2Proof.Machine

/-- One step of a block to which `i` is presented and reset is not (10_state.md R35). -/
def exec (i : Instr) (s : State) : Host.Outcome State Fault Refusal :=
  match i with
  | .len wsel value => Sys2Proof.Machine.execLen wsel value s
  | .encU8 value => Sys2Proof.Machine.execEncU8 value s
  | .encU16 value => Sys2Proof.Machine.execEncU16 value s
  | .encU32 value => Sys2Proof.Machine.execEncU32 value s
  | .encU64 value => Sys2Proof.Machine.execEncU64 value s
  | .decU8 value => Sys2Proof.Machine.execDecU8 value s
  | .decU16 value => Sys2Proof.Machine.execDecU16 value s
  | .decU32 value => Sys2Proof.Machine.execDecU32 value s
  | .decU64 value => Sys2Proof.Machine.execDecU64 value s
  | .illegal wsel value => Sys2Proof.Machine.execIllegal wsel value s

end Sys2Proof.Machine
end

