-- ==== Sys2Proof/Machine/Step.lean ====
section
/-! DEFINITION. The step of the block, and the host's way of presenting a command at the next one. -/

namespace Sys2Proof.Machine

/-- One step (10_state.md R35): the head of `inputs` is the step's sample, and the command it presents runs by `exec`. -/
def step (s : State) : Host.Outcome State Fault Refusal := stepWith exec s

/-- The block fetches nothing (20_memory.md R64): a command word is presented on the port. The next sample presents
the low `nbits` bits of `w` with an operand of zeros, to a block in IDLE (the only phase that accepts). -/
def State.withFetchWord (s : State) (nbits w : Nat) : State :=
  presentCommand (BitVec.ofNat 4 (w % 2 ^ nbits)) 0#64 s

end Sys2Proof.Machine
end

