-- ==== Sys2Proof/Machine/Assembler.lean ====
section
/-! DEFINITION. The host's assembler (30_encoding.md R82, R83): reading a line, refusing what R83 names, and the command word and operand a line stands for. -/

namespace Sys2Proof.Machine

/-- Why the assembler refuses a line (R83), or cannot read it. -/
inductive AsmReject where
  /-- A mnemonic outside R82's list. -/
  | unknownMnemonic
  /-- Operands the form does not have (too few or too many). -/
  | operandCount
  /-- An operand that is no decimal or `0x` hexadecimal number. -/
  | notANumber
  /-- An ENC operand of 2^W or more. -/
  | encOperandTooWide
  /-- A LEN operand of 2^64 or more. -/
  | lenOperandTooWide
  /-- A `.cw` word outside 0 to 15. -/
  | cwWordOutOfRange
  /-- A `.cw` operand of 2^64 or more. -/
  | cwOperandTooWide
deriving DecidableEq, Repr

/-- What one line presents on the command port (R82), or its refusal (R83). -/
def assemble (native : NativeWidth) (line : AsmLine) : Except AsmReject (CmdWord × Word) :=
  match line with
  | .len v =>
    if v < 2 ^ 64 then .ok (0x0#4, BitVec.ofNat 64 v) else .error .lenOperandTooWide
  | .enc w v =>
    if v < 2 ^ w.bits then .ok (CmdWord.make Op.enc.code w.code, BitVec.ofNat 64 v) else .error .encOperandTooWide
  | .dec w => .ok (CmdWord.make Op.dec.code w.code, 0#64)
  | .encUsize v =>
    if v < 2 ^ native.width.bits then .ok (CmdWord.make Op.enc.code native.width.code, BitVec.ofNat 64 v)
    else .error .encOperandTooWide
  | .decUsize => .ok (CmdWord.make Op.dec.code native.width.code, 0#64)
  | .cw n v =>
    if 16 ≤ n then .error .cwWordOutOfRange
    else if v < 2 ^ 64 then .ok (BitVec.ofNat 4 n, BitVec.ofNat 64 v)
    else .error .cwOperandTooWide

/-! ### Reading a line -/

/-- A space or a tab. -/
def isBlank (c : Char) : Bool := c == ' ' || c == '\t'

/-- A line up to its comment: `;` starts one (R82). -/
def uncomment (line : List Char) : List Char := line.takeWhile (· != ';')

/-- Without blanks at both ends. -/
def trimBlanks (cs : List Char) : List Char := ((cs.dropWhile isBlank).reverse.dropWhile isBlank).reverse

/-- The value of a digit in base 10 or 16. -/
def digitValue (base : Nat) (c : Char) : Option Nat :=
  let n := c.toNat
  if 48 ≤ n && n ≤ 57 then some (n - 48)
  else if base == 16 && 97 ≤ n && n ≤ 102 then some (n - 87)
  else if base == 16 && 65 ≤ n && n ≤ 70 then some (n - 55)
  else none

/-- The number that digits denote after `acc`, the most significant first. A `_` is a digit separator (00_scope.md R10);
R10 says it stands inside a literal and 30_encoding.md R82 does not speak of it. DESIGN CHOICE (log entry 9, unsafe for
a claim about such text): it is skipped wherever it stands among the digits, also leading, trailing or doubled. -/
def readDigits (base : Nat) : Nat → List Char → Option Nat
  | acc, [] => some acc
  | acc, '_' :: cs => readDigits base acc cs
  | acc, c :: cs =>
    match digitValue base c with
    | none => none
    | some d => readDigits base (base * acc + d) cs

/-- A number of a line: `0x` hexadecimal, else decimal (R82). DESIGN CHOICE (log entry 9): digits of the base are needed
beside the separators, so `_` alone is no number, while `_5`, `5_`, `1__2` and `0x_F` are. -/
def readNumber (cs : List Char) : Except AsmReject Nat :=
  let digits := match cs with
    | '0' :: 'x' :: ds => if ds.all (· == '_') then none else readDigits 16 0 ds
    | ds => if ds.all (· == '_') then none else readDigits 10 0 ds
  match digits with
  | none => .error .notANumber
  | some n => .ok n

/-- The pieces between commas, without blanks at their ends. -/
def splitCommas : List Char → List Char → List (List Char)
  | acc, [] => [trimBlanks acc.reverse]
  | acc, ',' :: cs => trimBlanks acc.reverse :: splitCommas [] cs
  | acc, c :: cs => splitCommas (c :: acc) cs

/-- The operand numbers after a mnemonic. -/
def readOperands (cs : List Char) : Except AsmReject (List Nat) :=
  match trimBlanks cs with
  | [] => .ok []
  | ds => (splitCommas [] ds).mapM readNumber

/-- The line a mnemonic and its operands make (R82). -/
def formLine (mnemonic : List Char) (operands : List Nat) : Except AsmReject AsmLine :=
  let one (f : Nat → AsmLine) : Except AsmReject AsmLine :=
    match operands with
    | [v] => .ok (f v)
    | _ => .error .operandCount
  let zero (l : AsmLine) : Except AsmReject AsmLine :=
    match operands with
    | [] => .ok l
    | _ => .error .operandCount
  if mnemonic == "LEN".toList then one .len
  else if mnemonic == "ENC.U8".toList then one (.enc .w8)
  else if mnemonic == "ENC.U16".toList then one (.enc .w16)
  else if mnemonic == "ENC.U32".toList then one (.enc .w32)
  else if mnemonic == "ENC.U64".toList then one (.enc .w64)
  else if mnemonic == "ENC.USIZE".toList then one .encUsize
  else if mnemonic == "DEC.U8".toList then zero (.dec .w8)
  else if mnemonic == "DEC.U16".toList then zero (.dec .w16)
  else if mnemonic == "DEC.U32".toList then zero (.dec .w32)
  else if mnemonic == "DEC.U64".toList then zero (.dec .w64)
  else if mnemonic == "DEC.USIZE".toList then zero .decUsize
  else if mnemonic == ".cw".toList then
    match operands with
    | [n] => .ok (.cw n 0)
    | [n, v] => .ok (.cw n v)
    | _ => .error .operandCount
  else .error .unknownMnemonic

/-- One line of text: nothing (blank or comment only), a line, or a refusal. -/
def readLine (text : List Char) : Except AsmReject (Option AsmLine) :=
  match trimBlanks (uncomment text) with
  | [] => .ok none
  | cs =>
    match readOperands (cs.dropWhile (fun c => !isBlank c)) with
    | .error r =>
      match formLine (cs.takeWhile (fun c => !isBlank c)) [] with
      | .error .unknownMnemonic => .error .unknownMnemonic
      | _ => .error r
    | .ok vs =>
      match formLine (cs.takeWhile (fun c => !isBlank c)) vs with
      | .error r => .error r
      | .ok l => .ok (some l)

/-- A line of text to what it presents on the command port. -/
def assembleText (native : NativeWidth) (text : String) : Except AsmReject (Option (CmdWord × Word)) :=
  match readLine text.toList with
  | .error r => .error r
  | .ok none => .ok none
  | .ok (some l) =>
    match assemble native l with
    | .error r => .error r
    | .ok p => .ok (some p)

end Sys2Proof.Machine
end

