-- ==== Sys2Proof/Machine/Functional.lean ====
section
/-! DEFINITION. The functional forms of the spec, against which the step rules are held: the value a varint carries (30_encoding.md R76), the canonical encoding (42_encoder.md R154), the accepted language (41_decoder.md R135) and `Decode(W, rs)` (R136). -/

namespace Sys2Proof.Machine

/-- `Σ b_i[6:0] * 2^(7i)` over the bytes of a varint (R76). -/
def wireValue : List Byte → Nat
  | [] => 0
  | b :: bs => (payload b).toNat + 2 ^ 7 * wireValue bs

/-- Byte `i` of the canonical encoding of `v`, which has `n` bytes (R154). -/
def canonicalByte (v : Word) (n i : Nat) : Byte :=
  ((v >>> (7 * i)) &&& 0x7F#64).setWidth 8 ||| (if i + 1 < n then 0x80#8 else 0x00#8)

/-- The canonical encoding of `v` (R78, R154). -/
def canonical (v : Word) : List Byte := (List.range (lenCalc v)).map (canonicalByte v (lenCalc v))

/-- A varint that DEC of width `w` accepts, split as continuation bytes and a terminal byte (R135). -/
structure Accepts (w : Width) (cs : List Byte) (b : Byte) : Prop where
  all_continue : ∀ c ∈ cs, continues c = true
  terminal : continues b = false
  index_bound : cs.length ≤ maxIdx w
  payload_bound : cs.length = maxIdx w → (payload b).toNat ≤ fMask w

/-- A varint that DEC of width `w` turns down: it is well formed on the wire and outside the width's bounds (R122, R135). -/
structure Overflows (w : Width) (cs : List Byte) (b : Byte) : Prop where
  all_continue : ∀ c ∈ cs, continues c = true
  terminal : continues b = false
  outside : maxIdx w < cs.length ∨ cs.length = maxIdx w ∧ fMask w < (payload b).toNat

/-- The outcome of a command together with the exact number of bytes it consumed (R136). -/
structure Completion where
  status : Status
  result : Word
  ioCode : IoCode
  consumed : Nat
deriving DecidableEq, Repr

/-- The completion of DEC at a terminal byte of index `n` over accumulator `acc` (R122, R123). -/
def terminalCompletion (w : Width) (acc : Word) (n : Nat) (b : Byte) : Completion :=
  if boundaryOverflow w n (payload b) then ⟨.overflow, 0#64, 0, n + 1⟩
  else if narrowOverflow w (accum acc (payload b) n) then ⟨.overflow, 0#64, 0, n + 1⟩
  else ⟨.ok, accum acc (payload b) n, 0, n + 1⟩

/-- `Decode` from byte index `n` and accumulator `acc`. The index is the exact one: nothing saturates here. -/
def decodeFrom (w : Width) : Word → Nat → List SrcResponse → Option Completion
  | _, _, [] => none
  | _, n, .fail e :: _ => some ⟨.ioErr, 0#64, e, n⟩
  | acc, n, .byte b :: rs =>
    if continues b then decodeFrom w (accum acc (payload b) n) (n + 1) rs
    else some (terminalCompletion w acc n b)

/-- `Decode(W, rs)` (R136): the first completion, or `none` for Running. -/
def decodeForm (w : Width) (rs : List SrcResponse) : Option Completion := decodeFrom w 0#64 0 rs

end Sys2Proof.Machine
end

