-- ==== Sys2Proof/Machine/Instances.lean ====
section
/-! DEFINITION. Several blocks side by side (60_exceptions.md R192): each has its own registers, channels and samples, and a step of one is a step of that one alone. -/

namespace Sys2Proof.Machine

/-- A step of block `k` among `blocks`; `none` if there is no such block or its step stops. -/
def stepBlock (k : Nat) (blocks : List State) : Option (List State) :=
  match blocks[k]? with
  | none => none
  | some s =>
    match step s with
    | .next t => some (blocks.set k t)
    | .fault _ => none
    | .refused _ => none

end Sys2Proof.Machine
end

