-- ==== Sys2Proof/Safety.lean ====
section
/-! DEFINITION. What claims about the block are stated in: a step that does not stop, the invariant of every run, agreement of two blocks on all that matters, runs over given port samples. -/

namespace Sys2Proof.Machine

/-- The step goes on: no fault, no refusal. -/
abbrev Steps (s : State) : Prop := ∃ t, step s = .next t

/-- The codes of a sample fit in `ERR_W` bits (00_scope.md R7, 20_memory.md R53). -/
abbrev Ports.Fits (errW : Nat) (p : Ports) : Prop := p.inCode < 2 ^ errW ∧ p.outCode < 2 ^ errW

/-- What holds at reset and after every step, for a port with `errW` code lines. -/
structure Inv (errW : Nat) (s : State) : Prop where
  /-- The code 0b11 is reached by no rule (10_state.md R21). -/
  phase_used : s.phase ≠ .unused
  /-- `idx` saturates at 10 (R24). -/
  idx_le : s.idx.toNat ≤ Config.idxMax
  /-- While a command runs, `done` is 0 (R30). -/
  running_not_done : s.phase ≠ .idle → s.done = false
  /-- `idx` is the count of continuation bytes as far as it can show it (R24, R26). -/
  dec_idx : s.phase = .decRun → s.idx.toNat = min s.count.toNat Config.idxMax
  /-- Continuation bytes filled only bits below `7 * idx` (41_decoder.md R129). -/
  dec_acc : s.phase = .decRun → s.idx.toNat ≤ 9 → s.acc.toNat < 2 ^ (7 * s.idx.toNat)
  /-- After `count` bytes the value still to encode has lost `7 * count` bits (42_encoder.md R154). -/
  enc_x : s.phase = .encRun → s.x.toNat < 2 ^ (64 - 7 * s.count.toNat)
  /-- A running ENC has at most 9 bytes behind it (R155). -/
  enc_count : s.phase = .encRun → s.count.toNat ≤ 9
  /-- After the first byte the value still to encode is not 0 (R154: the last byte is non-zero). -/
  enc_nonzero : s.phase = .encRun → 0 < s.count.toNat → 0 < s.x.toNat
  /-- `result` is 0 unless the last command ended in OK (R27). -/
  result_zero : s.status ≠ .ok → s.result = 0#64
  /-- `io_code` is 0 unless the last command ended in IO_ERR (R29). -/
  code_zero : s.status ≠ .ioErr → s.ioCode = 0
  /-- `io_code` has `ERR_W` bits (R29). -/
  code_fits : s.ioCode < 2 ^ errW
  /-- So have the codes at the ports. -/
  inputs_fit : ∀ p ∈ s.inputs, p.Fits errW

/-- Two blocks that no host can tell apart from now on, given the same samples: they agree on what the host reads,
on what the running command reads, and on the outcome once `done` is 1 (10_state.md R32, 70_reset_and_hazards.md
R205). -/
structure Agree (s t : State) : Prop where
  phase : s.phase = t.phase
  count : s.count = t.count
  done : s.done = t.done
  inputs : s.inputs = t.inputs
  dec : s.phase = .decRun → s.wsel = t.wsel ∧ s.acc = t.acc ∧ s.idx = t.idx
  enc : s.phase = .encRun → s.x = t.x
  outcome : s.done = true → s.status = t.status ∧ s.result = t.result ∧ s.ioCode = t.ioCode

/-- The blocks of a system with OPEN parameters `c`, each within the invariant (00_scope.md R7, 60_exceptions.md
R192). -/
structure SystemInv (c : OpenParams) (blocks : List State) : Prop where
  number : blocks.length = c.blocks
  each : ∀ s ∈ blocks, Inv c.errW s

/-- `k` steps of the machine the host runs. -/
abbrev run (k : Nat) (s : State) : Host.Outcome State Fault Refusal := Host.Core.run Sys2Proof.core k s

/-- The same block before other port samples. -/
def State.facing (s : State) (ps : List Ports) : State := { s with inputs := ps }

/-- No sample asserts reset. -/
abbrev NoReset (ps : List Ports) : Prop := ∀ p ∈ ps, p.rst = false

end Sys2Proof.Machine
end

