-- ==== Sys2Proof/Certificates/Slice0/Obligations.lean ====
section
/-! DEFINITION. The statements about the model. The fields `inputs`, `consumed` and `written`, in whatever statement they stand (also through `portsNow`, `facing` and `run`), are the model's own record of the environment (log entry 1), no registers of the spec. -/

open Sys2Proof Sys2Proof.Machine

/-! ### Encoding -/

/-- 30_encoding.md R71 to R73, R80: encoding a command and decoding its word and operand gives it back, for every
command, and every word and operand is what its decoding encodes to. -/
def Obligations.DecodeEncodeRoundTrip : Prop :=
  (∀ i : Instr, decode (encode i).1 (encode i).2 = i) ∧
  ∀ (cw : CmdWord) (v : Word), encode (decode cw v) = (cw, v)

/-- R72, R73, R80: the sixteen command words, written out, and the command each one is. -/
def Obligations.SixteenWordsDecodeAsMapped : Prop :=
  ∀ v : Word,
    decode 0b0000#4 v = .len 0b00#2 v ∧ decode 0b0001#4 v = .len 0b01#2 v ∧
    decode 0b0010#4 v = .len 0b10#2 v ∧ decode 0b0011#4 v = .len 0b11#2 v ∧
    decode 0b0100#4 v = .encU8 v ∧ decode 0b0101#4 v = .encU16 v ∧
    decode 0b0110#4 v = .encU32 v ∧ decode 0b0111#4 v = .encU64 v ∧
    decode 0b1000#4 v = .decU8 v ∧ decode 0b1001#4 v = .decU16 v ∧
    decode 0b1010#4 v = .decU32 v ∧ decode 0b1011#4 v = .decU64 v ∧
    decode 0b1100#4 v = .illegal 0b00#2 v ∧ decode 0b1101#4 v = .illegal 0b01#2 v ∧
    decode 0b1110#4 v = .illegal 0b10#2 v ∧ decode 0b1111#4 v = .illegal 0b11#2 v

/-- R80 and opcode_table.json: exactly one row of the table covers a command word, and it is the row of the command the
word decodes to. -/
def Obligations.ExactlyOneTableRowCoversAWord : Prop :=
  ∀ (cw : CmdWord) (v : Word),
    (opcodeTable.filter (fun r => r.covers cw)).map (fun r => r.mnemonic) = [(decode cw v).mnemonic]

/-! ### The step -/

/-- Where the sample presents a command and no reset, `step` is `exec` of the command the port's bits decode to, and the
sample is past; `exec` itself leaves the samples alone. In IDLE that is the acceptance of 10_state.md R35 and 30_encoding.md
R70. In DEC_RUN and ENC_RUN the presented command waits (R70, 70_reset_and_hazards.md R203): that `exec` of it is the
running command's byte step is the model's meaning of `exec` (log entry 8), not a rule's words. The list of samples is
the model's own too (log entry 1). `exec` refuses no command, and its one fault (log entry 6) is the step's. -/
def Obligations.StepRunsThePresentedCommand : Prop :=
  ∀ (s : State) (p : Ports) (ps : List Ports), s.inputs = p :: ps → p.rst = false → p.cmdValid = true →
    (∀ t, exec (decode (CmdWord.make p.cmdOp p.cmdWsel) p.cmdValue) s = .next t →
      t.inputs = p :: ps ∧ step s = .next { t with inputs := ps }) ∧
    (∀ f, exec (decode (CmdWord.make p.cmdOp p.cmdWsel) p.cmdValue) s = .fault f → step s = .fault f) ∧
    (∀ r, exec (decode (CmdWord.make p.cmdOp p.cmdWsel) p.cmdValue) s ≠ .refused r)

/-- The model's own way of presenting a word (log entries 1 and 2): the very next step runs the command it decodes to,
on the state in IDLE, and nothing of the samples after it is lost. -/
def Obligations.PresentedWordRunsAtTheNextStep : Prop :=
  ∀ (s : State) (nbits w : Nat) (i : Instr), decodeTableWord nbits w = some i →
    ∃ t, exec i (s.withFetchWord nbits w) = .next t ∧
      step (s.withFetchWord nbits w) = .next { t with inputs := s.inputs }

/-- 70_reset_and_hazards.md R200 with the values of 10_state.md R34: a step with reset asserted, in any phase and
whatever else the sample drives. The bytes moved stay moved (their record is the model's, log entry 1). -/
def Obligations.ResetStepGivesResetValues : Prop :=
  ∀ (s : State) (p : Ports) (ps : List Ports), s.inputs = p :: ps → p.rst = true →
    step s = .next
      { phase := .idle, wsel := 0b00#2, done := false, acc := 0#64, idx := 0#4, x := 0#64, count := 0#4,
        result := 0#64, status := .ok, ioCode := 0,
        inputs := ps, consumed := s.consumed, written := s.written }

/-- 10_state.md R35: a step with no event that matches the phase leaves every register unchanged; in particular the
step after the last sample does (log entry 1). -/
def Obligations.StallLeavesEveryRegister : Prop :=
  ∀ s : State, s.phase ≠ .unused → (portsNow s).rst = false →
    (s.phase = .idle → (portsNow s).cmdValid = false) →
    (s.phase = .decRun → (portsNow s).inValid = false) →
    (s.phase = .encRun → (portsNow s).outReady = false) →
    step s = .next { s with inputs := s.inputs.tail }

/-- 30_encoding.md R70, 70_reset_and_hazards.md R203: while a command runs, what is on the command port (a command or
none) changes nothing: the step is the same. -/
def Obligations.CommandWaitsWhileBusy : Prop :=
  ∀ (s : State) (p : Ports) (ps : List Ports) (valid : Bool) (op : BitVec 2) (wsel : WidthCode) (value : Word),
    s.phase ≠ .idle → s.inputs = p :: ps →
    step s =
      step { s with
        inputs := { p with cmdValid := valid, cmdOp := op, cmdWsel := wsel, cmdValue := value } :: ps }

/-- 93_implementation_defined.md X8: `phase = 0b11` is a fault. That it comes at every step without
reset, and from `exec` of every command, is the model's choice (log entries 6 and 8). -/
def Obligations.UnusedPhaseFaults : Prop :=
  ∀ s : State, s.phase = .unused →
    ((portsNow s).rst = false → step s = .fault .unusedPhase) ∧ ∀ i, exec i s = .fault .unusedPhase

/-! ### LEN -/

/-- 40_length.md R100, R104 with the closed form of R102 (the least n ≥ 1 with v < 2^(7n)): the words with op 0b00 are
LEN, and LEN in IDLE completes in that step, for every operand and width-select code. Only the named registers change,
and no byte moves. -/
def Obligations.LenCompletesInItsAcceptingStep : Prop :=
  ∀ (wsel : WidthCode) (v : Word), decode (CmdWord.make 0b00#2 wsel) v = .len wsel v ∧
    ∀ s : State, s.phase = .idle → ∃ n : Nat, 1 ≤ n ∧ n ≤ 10 ∧
      v.toNat < 2 ^ (7 * n) ∧ (∀ m, 1 ≤ m → m < n → 2 ^ (7 * m) ≤ v.toNat) ∧
      exec (.len wsel v) s = .next
        { s with wsel := wsel, count := 0#4, result := BitVec.ofNat 64 n, status := .ok, ioCode := 0,
                 done := true }

/-- 40_length.md R101: below 128 the length is 1, and each shift by 7 counts one; there are at most 9 shifts. -/
def Obligations.LenCalcFollowsTheShiftLoop : Prop :=
  ∀ v : Word,
    (v.toNat < 128 → lenCalc v = 1) ∧ (128 ≤ v.toNat → lenCalc v = lenCalc (v >>> 7) + 1) ∧
    1 ≤ lenCalc v ∧ lenCalc v ≤ 9 + 1

/-- 40_length.md R102: the priority-encoder form, one more than the number of the groups v[63:7], v[63:14], … v[63] that
are not zero. -/
def Obligations.LenCalcCountsNonzeroGroups : Prop :=
  ∀ v : Word,
    lenCalc v = ((List.range 9).filter (fun k => v >>> (7 * (k + 1)) != 0#64)).length + 1

/-! ### The reserved words -/

/-- 60_exceptions.md R184: the words with op 0b11 are the reserved ones, and every one of them in IDLE, with any operand,
completes with ILLEGAL_CMD; nothing but the named registers changes, and no byte moves. -/
def Obligations.ReservedWordCompletesIllegal : Prop :=
  ∀ (wsel : WidthCode) (v : Word), decode (CmdWord.make 0b11#2 wsel) v = .illegal wsel v ∧
    ∀ s : State, s.phase = .idle → exec (.illegal wsel v) s = .next
      { s with wsel := wsel, count := 0#4, status := .illegalCmd, result := 0#64, ioCode := 0, done := true }

/-! ### DEC -/

/-- 41_decoder.md R120: DEC.U8, DEC.U16, DEC.U32 and DEC.U64 (the words with op 0b10) in IDLE, with any operand. Only
the named registers change; `result`, `status` and `io_code` keep the previous command's values. -/
def Obligations.DecAcceptance : Prop :=
  ∀ (v : Word) (s : State), s.phase = .idle →
    ∀ iw ∈ [(Instr.decU8 v, 0b00#2), (.decU16 v, 0b01#2), (.decU32 v, 0b10#2), (.decU64 v, 0b11#2)],
      decode (CmdWord.make 0b10#2 iw.2) v = iw.1 ∧ exec iw.1 s = .next
        { s with wsel := iw.2, acc := 0#64, idx := 0#4, count := 0#4, done := false, phase := .decRun }

/-- 41_decoder.md R121 with Accum of R126: a continuation byte at any index, for any width. -/
def Obligations.DecContinuationByteStep : Prop :=
  ∀ (s : State) (p : Ports) (ps : List Ports), s.phase = .decRun → s.inputs = p :: ps → p.rst = false →
    p.inValid = true → p.inFail = false → 128 ≤ p.inData.toNat →
    step s = .next
      { s with
        count := BitVec.ofNat 4 (min (s.count.toNat + 1) 15)
        acc := if s.idx.toNat ≤ 9 then
            BitVec.ofNat 64 (s.acc.toNat ||| ((p.inData.toNat % 128) <<< (7 * s.idx.toNat)))
          else s.acc
        idx := BitVec.ofNat 4 (min (s.idx.toNat + 1) 10)
        inputs := ps
        consumed := s.consumed ++ [p.inData] }

/-- 41_decoder.md R122 and R123, with the numbers of 30_encoding.md R79: a terminal byte, for every width-select code.
It is consumed whatever follows; `acc`, `idx`, `x` and `wsel` keep their values. -/
def Obligations.DecTerminalByteStep : Prop :=
  ∀ (s : State) (p : Ports) (ps : List Ports) (W maxI mask : Nat),
    (s.wsel, W, maxI, mask) ∈
      [(0b00#2, 8, 1, 0x01), (0b01#2, 16, 2, 0x03), (0b10#2, 32, 4, 0x0F), (0b11#2, 64, 9, 0x01)] →
    s.phase = .decRun → s.inputs = p :: ps → p.rst = false →
    p.inValid = true → p.inFail = false → p.inData.toNat < 128 →
    let v : Word := if s.idx.toNat ≤ 9 then
        BitVec.ofNat 64 (s.acc.toNat ||| (p.inData.toNat <<< (7 * s.idx.toNat)))
      else s.acc
    let t : State := { s with
      count := BitVec.ofNat 4 (min (s.count.toNat + 1) 15)
      ioCode := 0, done := true, phase := .idle
      inputs := ps
      consumed := s.consumed ++ [p.inData] }
    step s = .next
      (if maxI < s.idx.toNat ∨ s.idx.toNat = maxI ∧ mask < p.inData.toNat then
        { t with status := .overflow, result := 0#64 }
      else if 2 ^ W ≤ v.toNat then { t with status := .overflow, result := 0#64 }
      else { t with status := .ok, result := v })

/-- 41_decoder.md R129: within the invariant, a terminal byte that passes the boundary check ends in OK with a value
below 2^W: the narrowing check never fires. -/
def Obligations.NarrowingCheckNeverFires : Prop :=
  ∀ (errW : Nat) (s : State) (b : Byte), Inv errW s → s.phase = .decRun → (portsNow s).rst = false →
    (portsNow s).source = some (.byte b) → continues b = false →
    boundaryOverflow (Width.ofCode s.wsel) s.idx.toNat (payload b) = false →
    ∃ t, step s = .next t ∧ t.status = .ok ∧ t.result.toNat < 2 ^ (Width.ofCode s.wsel).bits

/-- 41_decoder.md R124, 60_exceptions.md R183: a source failure, at any index: the code verbatim, nothing consumed. -/
def Obligations.DecSourceFailureStep : Prop :=
  ∀ (s : State) (p : Ports) (ps : List Ports), s.phase = .decRun → s.inputs = p :: ps → p.rst = false →
    p.inValid = true → p.inFail = true →
    step s = .next
      { s with status := .ioErr, result := 0#64, ioCode := p.inCode, done := true, phase := .idle, inputs := ps }

/-- 41_decoder.md R126: while the accumulator holds only groups below `i`, accumulating is adding modulo 2^64; at index
10 or more nothing reaches it. -/
def Obligations.AccumIsAdditionOfAGroup : Prop :=
  ∀ (acc : Word) (p : Payload) (i : Nat),
    (i ≤ 9 → acc.toNat < 2 ^ (7 * i) → accum acc p i = BitVec.ofNat 64 (acc.toNat + p.toNat * 2 ^ (7 * i))) ∧
    (10 ≤ i → accum acc p i = acc)

/-- 41_decoder.md R135, R128: DEC.U8, DEC.U16, DEC.U32 and DEC.U64 complete with OK on every accepted varint, however
the source stalls between the bytes: `exec` accepts the command, and the step that takes the terminal byte ends it. The
value is the sum of the groups and fits the width; the bytes of the varint are consumed and no others. The values left
in acc and idx are not stated (60_exceptions.md R195). -/
def Obligations.DecCompletesOnAcceptedVarints : Prop :=
  ∀ (w : Width) (v : Word) (s : State) (cs : List Byte) (b : Byte) (qs : List Ports) (p : Ports),
    s.phase = .idle → Accepts w cs b → NoReset (qs ++ [p]) →
    qs.filterMap Ports.source = cs.map SrcResponse.byte → p.source = some (.byte b) →
    ∃ t u, exec (Instr.dec w v) s = .next t ∧
      run (qs.length + 1) (t.facing (qs ++ [p])) = .next u ∧
      wireValue (cs ++ [b]) < 2 ^ w.bits ∧
      u = { s with
        wsel := w.code, acc := u.acc, idx := u.idx
        count := BitVec.ofNat 4 (cs.length + 1)
        result := BitVec.ofNat 64 (wireValue (cs ++ [b]))
        status := .ok, ioCode := 0, done := true
        inputs := [], consumed := s.consumed ++ cs ++ [b] }

/-- 41_decoder.md R122, R128, R135: a varint outside the width's bounds is read to its terminal byte, however long, and
then ends in OVERFLOW. -/
def Obligations.DecOverflowsOutsideTheBounds : Prop :=
  ∀ (w : Width) (v : Word) (s : State) (cs : List Byte) (b : Byte) (qs : List Ports) (p : Ports),
    s.phase = .idle → Overflows w cs b → NoReset (qs ++ [p]) →
    qs.filterMap Ports.source = cs.map SrcResponse.byte → p.source = some (.byte b) →
    ∃ t u, exec (Instr.dec w v) s = .next t ∧
      run (qs.length + 1) (t.facing (qs ++ [p])) = .next u ∧
      u = { s with
        wsel := w.code, acc := u.acc, idx := u.idx
        count := BitVec.ofNat 4 (min (cs.length + 1) 15)
        result := 0#64, status := .overflow, ioCode := 0, done := true
        inputs := [], consumed := s.consumed ++ cs ++ [b] }

/-- 41_decoder.md R125: as long as the source answers only continuation bytes (or stalls), a DEC command goes on: no
step ends it, whatever their number, and nothing of the last outcome changes. -/
def Obligations.DecHangsOnContinuationBytes : Prop :=
  ∀ (w : Width) (v : Word) (s : State) (cs : List Byte) (qs : List Ports),
    s.phase = .idle → NoReset qs → qs.filterMap Ports.source = cs.map SrcResponse.byte →
    (∀ c ∈ cs, continues c = true) →
    ∃ t u, exec (Instr.dec w v) s = .next t ∧ run qs.length (t.facing qs) = .next u ∧
      u = { s with
        phase := .decRun, wsel := w.code, acc := u.acc
        idx := BitVec.ofNat 4 (min cs.length 10), count := BitVec.ofNat 4 (min cs.length 15)
        done := false, inputs := [], consumed := s.consumed ++ cs }

/-- 41_decoder.md R136: the step rules agree with `Decode(W, rs)` on any samples without reset. Where it is Running
after all of them, so is the block; where it completes, the block completes with the same status, result and code, the
same bytes consumed and `count` their number saturated at 15, and `done` was 0 at every step before. `Decode` keeps an
exact index: the saturation of `idx` is not observable (R126). -/
def Obligations.StepRulesAgreeWithDecode : Prop :=
  ∀ (w : Width) (v : Word) (s : State) (qs : List Ports), s.phase = .idle → NoReset qs →
    ∃ t, exec (Instr.dec w v) s = .next t ∧
      match decodeForm w (qs.filterMap Ports.source) with
      | none => ∃ u, run qs.length (t.facing qs) = .next u ∧ u.phase = .decRun ∧ u.done = false
      | some c => ∃ k u, k ≤ qs.length ∧ run k (t.facing qs) = .next u ∧
          u.phase = .idle ∧ u.done = true ∧ u.status = c.status ∧ u.result = c.result ∧ u.ioCode = c.ioCode ∧
          u.count = BitVec.ofNat 4 (min c.consumed 15) ∧
          u.consumed.length = s.consumed.length + c.consumed ∧
          u.inputs = qs.drop k ∧
          ∀ j < k, ∃ m, run j (t.facing qs) = .next m ∧ m.done = false

/-- 41_decoder.md R135: the responses on which DEC ends in OK are exactly those that begin with an accepted varint. -/
def Obligations.AcceptedLanguageIsExact : Prop :=
  ∀ (w : Width) (rs : List SrcResponse) (value : Word) (code : IoCode) (n : Nat),
    decodeForm w rs = some ⟨.ok, value, code, n⟩ ↔
      ∃ cs b rest, Accepts w cs b ∧ rs = (cs ++ [b]).map SrcResponse.byte ++ rest ∧
        value.toNat = wireValue (cs ++ [b]) ∧ value.toNat < 2 ^ w.bits ∧ code = 0 ∧ n = cs.length + 1

/-! ### ENC -/

/-- 42_encoder.md R150: ENC.U8, ENC.U16, ENC.U32 and ENC.U64 (the words with op 0b01) in IDLE: the operand is the low
W bits of `cmd_value`, whatever stands above them. Only the named registers change. -/
def Obligations.EncAcceptance : Prop :=
  ∀ (v : Word) (s : State), s.phase = .idle →
    ∀ iw ∈ [(Instr.encU8 v, 0b00#2, 8), (.encU16 v, 0b01#2, 16), (.encU32 v, 0b10#2, 32), (.encU64 v, 0b11#2, 64)],
      decode (CmdWord.make 0b01#2 iw.2.1) v = iw.1 ∧ exec iw.1 s = .next
        { s with wsel := iw.2.1, x := BitVec.ofNat 64 (v.toNat % 2 ^ iw.2.2), count := 0#4, done := false,
                 phase := .encRun }

/-- 42_encoder.md R151, 20_memory.md R53: the byte at the sink port, and when one is offered. -/
def Obligations.OfferedByteIsEncByte : Prop :=
  ∀ s : State,
    (outValid s = true ↔ s.phase = .encRun) ∧
    (128 ≤ s.x.toNat → (outData s).toNat = s.x.toNat % 128 + 128) ∧
    (s.x.toNat < 128 → (outData s).toNat = s.x.toNat)

/-- 42_encoder.md R152: the sink acknowledges the offered byte. The premise on `count` holds in every state of the
invariant (`Inv.enc_count`); past 14 the spec's `count + 1` does not fit and log entry 4 applies. -/
def Obligations.EncAcknowledgedByteStep : Prop :=
  ∀ (s : State) (p : Ports) (ps : List Ports), s.phase = .encRun → s.inputs = p :: ps → p.rst = false →
    p.outReady = true → p.outFail = false → s.count.toNat ≤ 9 →
    let t : State := { s with
      count := BitVec.ofNat 4 (s.count.toNat + 1)
      inputs := ps
      written := s.written ++ [outData s] }
    step s = .next
      (if 128 ≤ s.x.toNat then { t with x := BitVec.ofNat 64 (s.x.toNat / 128) }
      else { t with status := .ok, result := BitVec.ofNat 64 (s.count.toNat + 1), ioCode := 0, done := true,
                    phase := .idle })

/-- 42_encoder.md R153, 60_exceptions.md R183: the sink fails the offered byte: the code verbatim, `count`, `x` and the
sink's contents unchanged. -/
def Obligations.EncSinkFailureStep : Prop :=
  ∀ (s : State) (p : Ports) (ps : List Ports), s.phase = .encRun → s.inputs = p :: ps → p.rst = false →
    p.outReady = true → p.outFail = true →
    step s = .next
      { s with status := .ioErr, result := 0#64, ioCode := p.outCode, done := true, phase := .idle, inputs := ps }

/-- 42_encoder.md R154: ENC.U8, ENC.U16, ENC.U32 and ENC.U64 complete with OK when the sink acknowledges every byte,
however it stalls between them: the canonical encoding of the low W bits is written, and its length is the result and
the count. The value left in x is not stated (60_exceptions.md R195). -/
def Obligations.EncWritesTheCanonicalEncoding : Prop :=
  ∀ (w : Width) (v : Word) (s : State) (qs : List Ports) (p : Ports),
    s.phase = .idle → NoReset (qs ++ [p]) →
    let x0 : Word := BitVec.ofNat 64 (v.toNat % 2 ^ w.bits)
    qs.filterMap Ports.sink = List.replicate (lenCalc x0 - 1) SnkResponse.ack → p.sink = some .ack →
    ∃ t u, exec (Instr.enc w v) s = .next t ∧
      run (qs.length + 1) (t.facing (qs ++ [p])) = .next u ∧
      u = { s with
        wsel := w.code, x := u.x
        count := BitVec.ofNat 4 (lenCalc x0)
        result := BitVec.ofNat 64 (lenCalc x0)
        status := .ok, ioCode := 0, done := true
        inputs := [], written := s.written ++ canonical x0 }

/-- 42_encoder.md R160, R153: after a sink failure the sink holds the first `count` bytes of the canonical encoding and
nothing else, and the failing code is reported. -/
def Obligations.EncFailureLeavesAPrefix : Prop :=
  ∀ (w : Width) (v : Word) (s : State) (qs : List Ports) (p : Ports) (k : Nat) (e : IoCode),
    s.phase = .idle → NoReset (qs ++ [p]) →
    let x0 : Word := BitVec.ofNat 64 (v.toNat % 2 ^ w.bits)
    k < lenCalc x0 → qs.filterMap Ports.sink = List.replicate k SnkResponse.ack → p.sink = some (.fail e) →
    ∃ t u, exec (Instr.enc w v) s = .next t ∧
      run (qs.length + 1) (t.facing (qs ++ [p])) = .next u ∧
      u = { s with
        wsel := w.code, x := u.x
        count := BitVec.ofNat 4 k
        result := 0#64, status := .ioErr, ioCode := e, done := true
        inputs := [], written := s.written ++ (canonical x0).take k }

/-- 30_encoding.md R78, 42_encoder.md R154: the canonical encoding carries its value, all its bytes but the last
continue, and its last byte is zero for the value 0 only. -/
def Obligations.CanonicalEncodingIsMinimal : Prop :=
  ∀ v : Word,
    ∃ cs b, canonical v = cs ++ [b] ∧ cs.length + 1 = lenCalc v ∧ (∀ c ∈ cs, continues c = true) ∧
      continues b = false ∧ (b = 0#8 → v = 0#64) ∧ wireValue (canonical v) = v.toNat

/-- 41_decoder.md R130, R78, 90_conflicts.md C3: re-encoding the value of an accepted varint gives the same bytes exactly
when the varint is one byte long or its last byte is not zero. -/
def Obligations.ReencodingGivesBackCanonicalInputsOnly : Prop :=
  ∀ (w : Width) (cs : List Byte) (b : Byte), Accepts w cs b →
    (canonical (BitVec.ofNat 64 (wireValue (cs ++ [b]))) = cs ++ [b] ↔ cs = [] ∨ b ≠ 0#8)

/-- 41_decoder.md R136: `DEC(W)` of the encoder's output for a value below 2^W. -/
def Obligations.DecodeOfCanonicalIsTheValue : Prop :=
  ∀ (w : Width) (v : Word), v.toNat < 2 ^ w.bits →
    decodeForm w ((canonical v).map SrcResponse.byte) = some ⟨.ok, v, 0, lenCalc v⟩

/-- 41_decoder.md R136, 95_test_vectors.md S20: the round trip on the block itself: an ENC whose sink acknowledges
everything, and after it a DEC of the same width whose source answers the bytes just written. -/
def Obligations.EncodeThenDecodeReturnsTheOperand : Prop :=
  ∀ (w : Width) (v v' : Word) (s : State) (qs ps : List Ports) (p q : Ports) (cs : List Byte) (b : Byte),
    s.phase = .idle → v.toNat < 2 ^ w.bits →
    NoReset (qs ++ [p]) → qs.filterMap Ports.sink = List.replicate (lenCalc v - 1) SnkResponse.ack →
    p.sink = some .ack →
    NoReset (ps ++ [q]) → ps.filterMap Ports.source = cs.map SrcResponse.byte → q.source = some (.byte b) →
    ∃ t u, exec (Instr.enc w v) s = .next t ∧ run (qs.length + 1) (t.facing (qs ++ [p])) = .next u ∧
      (u.written = s.written ++ cs ++ [b] →
        ∃ t' u', exec (Instr.dec w v') u = .next t' ∧ run (ps.length + 1) (t'.facing (ps ++ [q])) = .next u' ∧
          u'.phase = .idle ∧ u'.done = true ∧ u'.status = .ok ∧ u'.result = v ∧ u'.count = u.count)

/-! ### The whole machine -/

/-- The reset state is within the invariant, whatever `ERR_W`. The clauses on registers hold by the values of 10_state.md
R34; the clause on the samples (`inputs_fit`) holds because the model's reset state lists no sample, which is the choice
of log entry 1 and no rule's. The invariant is the model's own; that codes are bounded numbers is log entry 3. -/
def Obligations.InvariantHoldsAtReset : Prop :=
  ∀ errW : Nat, Inv errW State.reset

/-- Every step keeps the invariant: the phase stays a legal one, `idx` stays at most 10 and follows `count`, the
accumulator and the remaining value stay within the bits not yet used, `done` is 0 while a command runs, `result` and
`io_code` are 0 where R180 says so, and the code fits `ERR_W` bits. -/
def Obligations.StepKeepsTheInvariant : Prop :=
  ∀ (errW : Nat) (s t : State), Inv errW s → step s = .next t → Inv errW t

/-- Within the invariant no step stops and no command is turned away with a fault or a refusal (30_encoding.md R80,
60_exceptions.md R187: nothing traps). While a command runs, `exec` of another is its byte step (log entry 8). -/
def Obligations.NoStepStopsWithinTheInvariant : Prop :=
  ∀ (errW : Nat) (s : State), Inv errW s → Steps s ∧ ∀ i, ∃ t, exec i s = .next t

/-- 10_state.md R27 to R30, 70_reset_and_hazards.md R205: without reset, a step either leaves `status`, `result` and
`io_code` as they are, or completes a command. It clears `done` only by accepting an ENC or DEC. -/
def Obligations.OutcomeWrittenOnlyAtCompletion : Prop :=
  ∀ s t : State, (portsNow s).rst = false → step s = .next t →
    (t.status = s.status ∧ t.result = s.result ∧ t.ioCode = s.ioCode ∨ t.done = true ∧ t.phase = .idle) ∧
    (s.done = true → t.done = false →
      s.phase = .idle ∧ (portsNow s).cmdValid = true ∧
        ((portsNow s).cmdOp = 0b01#2 ∧ t.phase = .encRun ∨ (portsNow s).cmdOp = 0b10#2 ∧ t.phase = .decRun))

/-- 60_exceptions.md R182 to R185: where an outcome other than OK can come from. OVERFLOW: a terminal byte of a running
DEC only. IO_ERR: a failing response of the running command's channel only, with its code. ILLEGAL_CMD: a reserved
word only. -/
def Obligations.ErrorsHaveTheirOnlyCauses : Prop :=
  ∀ s t : State, (portsNow s).rst = false → step s = .next t →
    (t.status = .overflow → s.status = .overflow ∨
      s.phase = .decRun ∧ ∃ b, (portsNow s).source = some (.byte b) ∧ continues b = false) ∧
    (t.status = .ioErr → s.status = .ioErr ∧ t.ioCode = s.ioCode ∨
      s.phase = .decRun ∧ (portsNow s).source = some (.fail t.ioCode) ∨
      s.phase = .encRun ∧ (portsNow s).sink = some (.fail t.ioCode)) ∧
    (t.status = .illegalCmd → s.status = .illegalCmd ∨
      s.phase = .idle ∧ (portsNow s).cmdValid = true ∧ (portsNow s).cmdOp = 0b11#2)

/-- 20_memory.md R50, R57 to R59: a step moves at most one byte on each channel: the one a running DEC is answered, or
the one a running ENC offers and the sink acknowledges. Reset and every other step move none. (The record of the bytes
is the model's, log entry 1.) -/
def Obligations.BytesMoveOneAtATime : Prop :=
  ∀ s t : State, step s = .next t →
    t.consumed = s.consumed ++
      (match s.phase, (portsNow s).rst, (portsNow s).source with
        | .decRun, false, some (.byte b) => [b]
        | _, _, _ => []) ∧
    t.written = s.written ++
      (match s.phase, (portsNow s).rst, (portsNow s).sink with
        | .encRun, false, some .ack => [outData s]
        | _, _, _ => [])

/-- 42_encoder.md R162: the decoder neither reads nor writes the encoder's `x`, and the encoder neither reads nor writes
the decoder's `acc` and `idx`: running one over another value of the other's registers gives the same step and leaves
that value. -/
def Obligations.EncoderAndDecoderAreIndependent : Prop :=
  ∀ (s t : State), (portsNow s).rst = false → step s = .next t →
    (s.phase = .decRun → ∀ y, step { s with x := y } = .next { t with x := y }) ∧
    (s.phase = .encRun → ∀ a i, step { s with acc := a, idx := i } = .next { t with acc := a, idx := i })

/-- 10_state.md R32: what a command does depends on no earlier command. Two idle blocks in any states, given the same
samples with a command first, agree after its acceptance, and blocks that agree go on agreeing step by step. -/
def Obligations.CommandsAreStatelessBetweenEachOther : Prop :=
  (∀ s t : State, s.phase = .idle → t.phase = .idle → s.inputs = t.inputs →
    (portsNow s).rst = false → (portsNow s).cmdValid = true →
    ∃ s' t', step s = .next s' ∧ step t = .next t' ∧ Agree s' t') ∧
  (∀ s t : State, Agree s t → s.phase ≠ .unused →
    ∃ s' t', step s = .next s' ∧ step t = .next t' ∧ Agree s' t')

/-- 60_exceptions.md R192: a step of one block is a step of that block alone, and steps of two blocks
commute. Blocks that step one at a time are the model's form (log entry 7). -/
def Obligations.BlocksAreIndependent : Prop :=
  (∀ (k : Nat) (bs bs' : List State), stepBlock k bs = some bs' →
    bs'.length = bs.length ∧ (∀ j, j ≠ k → bs'[j]? = bs[j]?) ∧
    ∃ s t, bs[k]? = some s ∧ step s = .next t ∧ bs'[k]? = some t) ∧
  (∀ (j k : Nat) (bs : List State), j ≠ k →
    (stepBlock j bs).bind (stepBlock k) = (stepBlock k bs).bind (stepBlock j))

/-- 60_exceptions.md R192, 00_scope.md R7: every step of a block keeps the invariant of the system, and every block of
it can step. -/
def Obligations.SystemInvariantIsKept : Prop :=
  ∀ (c : OpenParams) (bs : List State), SystemInv c bs →
    ∀ k < c.blocks, ∃ bs', stepBlock k bs = some bs' ∧ SystemInv c bs'

/-! ### The assembler -/

/-- 30_encoding.md R82, R83, 41_decoder.md R137, 42_encoder.md R161: the assembler accepts exactly the lines in range,
and the word and operand it gives are the command the line names, with the operand's value; the pseudo-instructions are
those of the native width. -/
def Obligations.AssemblerWritesTheNamedCommand : Prop :=
  ∀ (native : NativeWidth) (l : AsmLine),
    (l.wf native = true ↔ ∃ r, assemble native l = .ok r) ∧
    ∀ (cw : CmdWord) (v : Word), assemble native l = .ok (cw, v) →
      match l with
      | .len n => decode cw v = .len 0#2 v ∧ v.toNat = n
      | .enc w n => decode cw v = Instr.enc w v ∧ v.toNat = n
      | .dec w => decode cw v = Instr.dec w 0#64
      | .encUsize n => decode cw v = Instr.enc native.width v ∧ v.toNat = n
      | .decUsize => decode cw v = Instr.dec native.width 0#64
      | .cw n m => cw.toNat = n ∧ v.toNat = m

/-- 30_encoding.md R82: the commands that a mnemonic writes, on some platform, are exactly those of `hasMnemonicForm`;
every other one needs the raw form. -/
def Obligations.MnemonicFormsAreExact : Prop :=
  ∀ i : Instr,
    i.hasMnemonicForm = true ↔
      ∃ native l, (∀ n v, l ≠ .cw n v) ∧ assemble native l = .ok (encode i)
end

