-- ==== Sys2Proof/Laws/State.lean ====
section
/-! SUPPORT. One lemma per field per update of the state: what the named updates write and what they leave. -/

namespace Sys2Proof.Machine

/-! ### `latchCommand` -/

@[simp] theorem latchCommand_phase (w : WidthCode) (s : State) : (latchCommand w s).phase = s.phase := rfl
@[simp] theorem latchCommand_wsel (w : WidthCode) (s : State) : (latchCommand w s).wsel = w := rfl
@[simp] theorem latchCommand_acc (w : WidthCode) (s : State) : (latchCommand w s).acc = s.acc := rfl
@[simp] theorem latchCommand_idx (w : WidthCode) (s : State) : (latchCommand w s).idx = s.idx := rfl
@[simp] theorem latchCommand_x (w : WidthCode) (s : State) : (latchCommand w s).x = s.x := rfl
@[simp] theorem latchCommand_count (w : WidthCode) (s : State) : (latchCommand w s).count = 0#4 := rfl
@[simp] theorem latchCommand_result (w : WidthCode) (s : State) : (latchCommand w s).result = s.result := rfl
@[simp] theorem latchCommand_status (w : WidthCode) (s : State) : (latchCommand w s).status = s.status := rfl
@[simp] theorem latchCommand_ioCode (w : WidthCode) (s : State) : (latchCommand w s).ioCode = s.ioCode := rfl
@[simp] theorem latchCommand_done (w : WidthCode) (s : State) : (latchCommand w s).done = s.done := rfl
@[simp] theorem latchCommand_inputs (w : WidthCode) (s : State) : (latchCommand w s).inputs = s.inputs := rfl
@[simp] theorem latchCommand_consumed (w : WidthCode) (s : State) : (latchCommand w s).consumed = s.consumed := rfl
@[simp] theorem latchCommand_written (w : WidthCode) (s : State) : (latchCommand w s).written = s.written := rfl

/-! ### `finish` -/

@[simp] theorem finish_phase (st : Status) (r : Word) (e : IoCode) (s : State) : (finish st r e s).phase = .idle := rfl
@[simp] theorem finish_wsel (st : Status) (r : Word) (e : IoCode) (s : State) : (finish st r e s).wsel = s.wsel := rfl
@[simp] theorem finish_acc (st : Status) (r : Word) (e : IoCode) (s : State) : (finish st r e s).acc = s.acc := rfl
@[simp] theorem finish_idx (st : Status) (r : Word) (e : IoCode) (s : State) : (finish st r e s).idx = s.idx := rfl
@[simp] theorem finish_x (st : Status) (r : Word) (e : IoCode) (s : State) : (finish st r e s).x = s.x := rfl
@[simp] theorem finish_count (st : Status) (r : Word) (e : IoCode) (s : State) : (finish st r e s).count = s.count := rfl
@[simp] theorem finish_result (st : Status) (r : Word) (e : IoCode) (s : State) : (finish st r e s).result = r := rfl
@[simp] theorem finish_status (st : Status) (r : Word) (e : IoCode) (s : State) : (finish st r e s).status = st := rfl
@[simp] theorem finish_ioCode (st : Status) (r : Word) (e : IoCode) (s : State) : (finish st r e s).ioCode = e := rfl
@[simp] theorem finish_done (st : Status) (r : Word) (e : IoCode) (s : State) : (finish st r e s).done = true := rfl
@[simp] theorem finish_inputs (st : Status) (r : Word) (e : IoCode) (s : State) : (finish st r e s).inputs = s.inputs := rfl
@[simp] theorem finish_consumed (st : Status) (r : Word) (e : IoCode) (s : State) : (finish st r e s).consumed = s.consumed := rfl
@[simp] theorem finish_written (st : Status) (r : Word) (e : IoCode) (s : State) : (finish st r e s).written = s.written := rfl

/-! ### `byteTaken` -/

@[simp] theorem byteTaken_phase (b : Byte) (s : State) : (byteTaken b s).phase = s.phase := rfl
@[simp] theorem byteTaken_wsel (b : Byte) (s : State) : (byteTaken b s).wsel = s.wsel := rfl
@[simp] theorem byteTaken_acc (b : Byte) (s : State) : (byteTaken b s).acc = s.acc := rfl
@[simp] theorem byteTaken_idx (b : Byte) (s : State) : (byteTaken b s).idx = s.idx := rfl
@[simp] theorem byteTaken_x (b : Byte) (s : State) : (byteTaken b s).x = s.x := rfl
@[simp] theorem byteTaken_count (b : Byte) (s : State) : (byteTaken b s).count = countUp s.count := rfl
@[simp] theorem byteTaken_result (b : Byte) (s : State) : (byteTaken b s).result = s.result := rfl
@[simp] theorem byteTaken_status (b : Byte) (s : State) : (byteTaken b s).status = s.status := rfl
@[simp] theorem byteTaken_ioCode (b : Byte) (s : State) : (byteTaken b s).ioCode = s.ioCode := rfl
@[simp] theorem byteTaken_done (b : Byte) (s : State) : (byteTaken b s).done = s.done := rfl
@[simp] theorem byteTaken_inputs (b : Byte) (s : State) : (byteTaken b s).inputs = s.inputs := rfl
@[simp] theorem byteTaken_consumed (b : Byte) (s : State) : (byteTaken b s).consumed = s.consumed ++ [b] := rfl
@[simp] theorem byteTaken_written (b : Byte) (s : State) : (byteTaken b s).written = s.written := rfl

/-! ### `byteWritten` -/

@[simp] theorem byteWritten_phase (b : Byte) (s : State) : (byteWritten b s).phase = s.phase := rfl
@[simp] theorem byteWritten_wsel (b : Byte) (s : State) : (byteWritten b s).wsel = s.wsel := rfl
@[simp] theorem byteWritten_acc (b : Byte) (s : State) : (byteWritten b s).acc = s.acc := rfl
@[simp] theorem byteWritten_idx (b : Byte) (s : State) : (byteWritten b s).idx = s.idx := rfl
@[simp] theorem byteWritten_x (b : Byte) (s : State) : (byteWritten b s).x = s.x := rfl
@[simp] theorem byteWritten_count (b : Byte) (s : State) : (byteWritten b s).count = countUp s.count := rfl
@[simp] theorem byteWritten_result (b : Byte) (s : State) : (byteWritten b s).result = s.result := rfl
@[simp] theorem byteWritten_status (b : Byte) (s : State) : (byteWritten b s).status = s.status := rfl
@[simp] theorem byteWritten_ioCode (b : Byte) (s : State) : (byteWritten b s).ioCode = s.ioCode := rfl
@[simp] theorem byteWritten_done (b : Byte) (s : State) : (byteWritten b s).done = s.done := rfl
@[simp] theorem byteWritten_inputs (b : Byte) (s : State) : (byteWritten b s).inputs = s.inputs := rfl
@[simp] theorem byteWritten_consumed (b : Byte) (s : State) : (byteWritten b s).consumed = s.consumed := rfl
@[simp] theorem byteWritten_written (b : Byte) (s : State) : (byteWritten b s).written = s.written ++ [b] := rfl

/-! ### `decContinue` -/

@[simp] theorem decContinue_phase (b : Byte) (s : State) : (decContinue b s).phase = s.phase := rfl
@[simp] theorem decContinue_wsel (b : Byte) (s : State) : (decContinue b s).wsel = s.wsel := rfl
@[simp] theorem decContinue_acc (b : Byte) (s : State) : (decContinue b s).acc = accum s.acc (payload b) s.idx.toNat := rfl
@[simp] theorem decContinue_idx (b : Byte) (s : State) : (decContinue b s).idx = idxUp s.idx := rfl
@[simp] theorem decContinue_x (b : Byte) (s : State) : (decContinue b s).x = s.x := rfl
@[simp] theorem decContinue_count (b : Byte) (s : State) : (decContinue b s).count = s.count := rfl
@[simp] theorem decContinue_result (b : Byte) (s : State) : (decContinue b s).result = s.result := rfl
@[simp] theorem decContinue_status (b : Byte) (s : State) : (decContinue b s).status = s.status := rfl
@[simp] theorem decContinue_ioCode (b : Byte) (s : State) : (decContinue b s).ioCode = s.ioCode := rfl
@[simp] theorem decContinue_done (b : Byte) (s : State) : (decContinue b s).done = s.done := rfl
@[simp] theorem decContinue_inputs (b : Byte) (s : State) : (decContinue b s).inputs = s.inputs := rfl
@[simp] theorem decContinue_consumed (b : Byte) (s : State) : (decContinue b s).consumed = s.consumed := rfl
@[simp] theorem decContinue_written (b : Byte) (s : State) : (decContinue b s).written = s.written := rfl

/-! ### `dropSample` -/

@[simp] theorem dropSample_phase (s : State) : (dropSample s).phase = s.phase := rfl
@[simp] theorem dropSample_wsel (s : State) : (dropSample s).wsel = s.wsel := rfl
@[simp] theorem dropSample_acc (s : State) : (dropSample s).acc = s.acc := rfl
@[simp] theorem dropSample_idx (s : State) : (dropSample s).idx = s.idx := rfl
@[simp] theorem dropSample_x (s : State) : (dropSample s).x = s.x := rfl
@[simp] theorem dropSample_count (s : State) : (dropSample s).count = s.count := rfl
@[simp] theorem dropSample_result (s : State) : (dropSample s).result = s.result := rfl
@[simp] theorem dropSample_status (s : State) : (dropSample s).status = s.status := rfl
@[simp] theorem dropSample_ioCode (s : State) : (dropSample s).ioCode = s.ioCode := rfl
@[simp] theorem dropSample_done (s : State) : (dropSample s).done = s.done := rfl
@[simp] theorem dropSample_inputs (s : State) : (dropSample s).inputs = s.inputs.tail := rfl
@[simp] theorem dropSample_consumed (s : State) : (dropSample s).consumed = s.consumed := rfl
@[simp] theorem dropSample_written (s : State) : (dropSample s).written = s.written := rfl

/-! ### `facing` -/

@[simp] theorem facing_phase (s : State) (ps : List Ports) : (s.facing ps).phase = s.phase := rfl
@[simp] theorem facing_wsel (s : State) (ps : List Ports) : (s.facing ps).wsel = s.wsel := rfl
@[simp] theorem facing_acc (s : State) (ps : List Ports) : (s.facing ps).acc = s.acc := rfl
@[simp] theorem facing_idx (s : State) (ps : List Ports) : (s.facing ps).idx = s.idx := rfl
@[simp] theorem facing_x (s : State) (ps : List Ports) : (s.facing ps).x = s.x := rfl
@[simp] theorem facing_count (s : State) (ps : List Ports) : (s.facing ps).count = s.count := rfl
@[simp] theorem facing_result (s : State) (ps : List Ports) : (s.facing ps).result = s.result := rfl
@[simp] theorem facing_status (s : State) (ps : List Ports) : (s.facing ps).status = s.status := rfl
@[simp] theorem facing_ioCode (s : State) (ps : List Ports) : (s.facing ps).ioCode = s.ioCode := rfl
@[simp] theorem facing_done (s : State) (ps : List Ports) : (s.facing ps).done = s.done := rfl
@[simp] theorem facing_inputs (s : State) (ps : List Ports) : (s.facing ps).inputs = ps := rfl
@[simp] theorem facing_consumed (s : State) (ps : List Ports) : (s.facing ps).consumed = s.consumed := rfl
@[simp] theorem facing_written (s : State) (ps : List Ports) : (s.facing ps).written = s.written := rfl

end Sys2Proof.Machine
end

