-- ==== Sys2Proof/Laws/Ops.lean ====
section
/-! SUPPORT. One lemma per shared operation: the counters and word functions as numbers, and what each step of a unit can do. -/

namespace Sys2Proof.Machine

/-! ### Counters and words as numbers -/

theorem countUp_toNat (c : BitVec 4) : (countUp c).toNat = min (c.toNat + 1) 15 := by
  simp only [countUp, Config.countMax, BitVec.toNat_ofNat]
  omega

theorem idxUp_toNat (i : BitVec 4) : (idxUp i).toNat = min (i.toNat + 1) 10 := by
  simp only [idxUp, Config.idxMax, BitVec.toNat_ofNat]
  omega

theorem payload_toNat (b : Byte) : (payload b).toNat = b.toNat % 128 := by
  simp [payload]

theorem continues_eq_decide (b : Byte) : continues b = decide (128 ≤ b.toNat) := by
  revert b
  decide

theorem continues_iff (b : Byte) : continues b = true ↔ 128 ≤ b.toNat := by
  simp [continues_eq_decide]

theorem not_continues_iff (b : Byte) : continues b = false ↔ b.toNat < 128 := by
  simp [continues_eq_decide]

theorem moreGroups_iff (x : Word) : moreGroups x = true ↔ 128 ≤ x.toNat := by
  simp [moreGroups]

theorem encOperand_toNat (w : Width) (v : Word) : (encOperand w v).toNat = v.toNat % 2 ^ w.bits := by
  have := v.isLt
  cases w <;> simp [encOperand, Width.bits] <;> omega

/-- `Accum` on numbers, below index 10 (R126): OR on unbounded naturals, then 64 bits. -/
theorem accum_eq (acc : Word) (p : Payload) (i : Nat) (h : i ≤ 9) :
    accum acc p i = BitVec.ofNat 64 (acc.toNat ||| (p.toNat <<< (7 * i))) := by
  have hp := p.isLt
  apply BitVec.eq_of_toNat_eq
  simp only [accum, h, if_true, BitVec.toNat_or, BitVec.toNat_shiftLeft, BitVec.toNat_setWidth, BitVec.toNat_ofNat,
    Nat.or_mod_two_pow, Nat.mod_eq_of_lt acc.isLt, Nat.mod_eq_of_lt (Nat.lt_trans hp (by decide : 2 ^ 7 < 2 ^ 64))]

theorem accum_of_lt (acc : Word) (p : Payload) (i : Nat) (h : 10 ≤ i) : accum acc p i = acc := by
  simp [accum, Nat.not_le.mpr h]

@[simp] theorem ofCode_code (w : Width) : Width.ofCode w.code = w := by cases w <;> rfl

/-- The width table (30_encoding.md R79). -/
theorem maxIdx_cases (w : Width) :
    (w = .w8 ∧ maxIdx w = 1 ∧ fMask w = 1) ∨ (w = .w16 ∧ maxIdx w = 2 ∧ fMask w = 3) ∨
    (w = .w32 ∧ maxIdx w = 4 ∧ fMask w = 15) ∨ (w = .w64 ∧ maxIdx w = 9 ∧ fMask w = 1) := by
  cases w <;> decide

theorem maxIdx_le (w : Width) : maxIdx w ≤ 9 := by cases w <;> decide

/-- `FMASK(W) = 2^(W - 7·MAXIDX(W)) - 1`: the bits at the last index are those the groups below leave (R14). -/
theorem fMask_succ_mul (w : Width) : (fMask w + 1) * 2 ^ (7 * maxIdx w) = 2 ^ w.bits := by cases w <;> decide

/-! ### Samples -/

@[simp] theorem portsNow_facing_nil (s : State) : portsNow (s.facing []) = Ports.quiet := rfl

@[simp] theorem portsNow_facing_cons (s : State) (p : Ports) (ps : List Ports) : portsNow (s.facing (p :: ps)) = p := rfl

theorem portsNow_of_inputs {s : State} {p : Ports} {ps : List Ports} (h : s.inputs = p :: ps) : portsNow s = p := by
  simp [portsNow, h]

theorem source_eq_byte_iff (p : Ports) (b : Byte) :
    p.source = some (.byte b) ↔ p.inValid = true ∧ p.inFail = false ∧ p.inData = b := by
  simp only [Ports.source]
  cases p.inValid <;> cases p.inFail <;> simp

theorem source_eq_fail_iff (p : Ports) (e : IoCode) :
    p.source = some (.fail e) ↔ p.inValid = true ∧ p.inFail = true ∧ p.inCode = e := by
  simp only [Ports.source]
  cases p.inValid <;> cases p.inFail <;> simp

theorem source_eq_none_iff (p : Ports) : p.source = none ↔ p.inValid = false := by
  simp only [Ports.source]
  cases p.inValid <;> simp

theorem sink_eq_ack_iff (p : Ports) : p.sink = some .ack ↔ p.outReady = true ∧ p.outFail = false := by
  simp only [Ports.sink]
  cases p.outReady <;> cases p.outFail <;> simp

theorem sink_eq_fail_iff (p : Ports) (e : IoCode) :
    p.sink = some (.fail e) ↔ p.outReady = true ∧ p.outFail = true ∧ p.outCode = e := by
  simp only [Ports.sink]
  cases p.outReady <;> cases p.outFail <;> simp

theorem sink_eq_none_iff (p : Ports) : p.sink = none ↔ p.outReady = false := by
  simp only [Ports.sink]
  cases p.outReady <;> simp

/-! ### What a unit's step can do -/

/-- A running DEC's step: a stall, a continuation byte, a terminal byte that overflows, one that ends in OK, or a
failure. -/
theorem decStep_cases (r : Option SrcResponse) (s : State) :
    (r = none ∧ decStep r s = s) ∨
    (∃ b, r = some (.byte b) ∧ continues b = true ∧ decStep r s = decContinue b (byteTaken b s)) ∨
    (∃ b, r = some (.byte b) ∧ continues b = false ∧
      (boundaryOverflow (Width.ofCode s.wsel) s.idx.toNat (payload b) = true ∨
        narrowOverflow (Width.ofCode s.wsel) (accum s.acc (payload b) s.idx.toNat) = true) ∧
      decStep r s = finish .overflow 0#64 0 (byteTaken b s)) ∨
    (∃ b, r = some (.byte b) ∧ continues b = false ∧
      boundaryOverflow (Width.ofCode s.wsel) s.idx.toNat (payload b) = false ∧
      narrowOverflow (Width.ofCode s.wsel) (accum s.acc (payload b) s.idx.toNat) = false ∧
      decStep r s = finish .ok (accum s.acc (payload b) s.idx.toNat) 0 (byteTaken b s)) ∨
    (∃ e, r = some (.fail e) ∧ decStep r s = finish .ioErr 0#64 e s) := by
  rcases r with _ | b | e
  · exact .inl ⟨rfl, rfl⟩
  · cases hc : continues b
    · cases hb : boundaryOverflow (Width.ofCode s.wsel) s.idx.toNat (payload b)
      · cases hn : narrowOverflow (Width.ofCode s.wsel) (accum s.acc (payload b) s.idx.toNat)
        · exact .inr (.inr (.inr (.inl ⟨b, rfl, hc, hb, hn, by simp [decStep, decByte, decTerminal, hc, hb, hn]⟩)))
        · exact .inr (.inr (.inl ⟨b, rfl, hc, .inr hn, by
            simp [decStep, decByte, decTerminal, raiseOverflow, hc, hb, hn]⟩))
      · exact .inr (.inr (.inl ⟨b, rfl, hc, .inl hb, by
          simp [decStep, decByte, decTerminal, raiseOverflow, hc, hb]⟩))
    · exact .inr (.inl ⟨b, rfl, hc, by simp [decStep, decByte, hc]⟩)
  · exact .inr (.inr (.inr (.inr ⟨e, rfl, rfl⟩)))

/-- A running ENC's step: a stall, an acknowledged byte with more to come, the last acknowledged byte, or a failure. -/
theorem encStep_cases (r : Option SnkResponse) (s : State) :
    (r = none ∧ encStep r s = s) ∨
    (r = some .ack ∧ 128 ≤ s.x.toNat ∧
      encStep r s = { byteWritten (encByte s.x) s with x := s.x >>> 7 }) ∨
    (r = some .ack ∧ s.x.toNat < 128 ∧
      encStep r s = finish .ok ((countUp s.count).setWidth 64) 0 (byteWritten (encByte s.x) s)) ∨
    (∃ e, r = some (.fail e) ∧ encStep r s = finish .ioErr 0#64 e s) := by
  rcases r with _ | _ | e
  · exact .inl ⟨rfl, rfl⟩
  · by_cases hx : 128 ≤ s.x.toNat
    · exact .inr (.inl ⟨rfl, hx, by simp [encStep, encAcked, moreGroups, hx]⟩)
    · exact .inr (.inr (.inl ⟨rfl, by omega, by simp [encStep, encAcked, moreGroups, hx]⟩))
  · exact .inr (.inr (.inr ⟨e, rfl, rfl⟩))

/-! ### A unit's step looks at no sample: it is handed the response -/

theorem facing_self (s : State) : s.facing s.inputs = s := rfl

theorem decStep_facing (r : Option SrcResponse) (s : State) (ps : List Ports) :
    decStep r (s.facing ps) = (decStep r s).facing ps := by
  rcases r with _ | b | e
  · rfl
  · cases hc : continues b <;>
      cases hb : boundaryOverflow (Width.ofCode s.wsel) s.idx.toNat (payload b) <;>
        cases hn : narrowOverflow (Width.ofCode s.wsel) (accum s.acc (payload b) s.idx.toNat) <;>
          simp [decStep, decByte, decTerminal, hc, hb, hn] <;> rfl
  · rfl

theorem encStep_facing (r : Option SnkResponse) (s : State) (ps : List Ports) :
    encStep r (s.facing ps) = (encStep r s).facing ps := by
  rcases r with _ | _ | e
  · rfl
  · cases hx : moreGroups s.x <;> simp [encStep, encAcked, hx] <;> rfl
  · rfl

@[simp] theorem decStep_inputs (r : Option SrcResponse) (s : State) : (decStep r s).inputs = s.inputs := by
  have h := congrArg State.inputs (decStep_facing r s s.inputs)
  rwa [facing_self, facing_inputs] at h

@[simp] theorem encStep_inputs (r : Option SnkResponse) (s : State) : (encStep r s).inputs = s.inputs := by
  have h := congrArg State.inputs (encStep_facing r s s.inputs)
  rwa [facing_self, facing_inputs] at h

end Sys2Proof.Machine
end

