-- ==== Sys2Proof/Laws/PerInstr.lean ====
section
/-! SUPPORT. Facts about commands as syntax, one lemma per constructor: the word a command is encoded to lies in the row of the opcode table that bears its mnemonic. -/

namespace Sys2Proof.Laws.TableRow

/-- The command's encoded word is one that its row of the opcode table covers. -/
def Statement (i : Instr) : Prop :=
  ∃ r ∈ opcodeTable, r.mnemonic = i.mnemonic ∧ r.covers (encode i).1 = true

theorem len (wsel : WidthCode) (value : Word) : Statement (.len wsel value) :=
  ⟨⟨"LEN", 0x0#4, 0xC#4⟩, by decide, rfl, by revert wsel; simp only [encode]; decide⟩

theorem encU8 (value : Word) : Statement (.encU8 value) := ⟨⟨"ENC.U8", 0x4#4, 0xF#4⟩, by decide, rfl, by simp only [encode]; decide⟩

theorem encU16 (value : Word) : Statement (.encU16 value) := ⟨⟨"ENC.U16", 0x5#4, 0xF#4⟩, by decide, rfl, by simp only [encode]; decide⟩

theorem encU32 (value : Word) : Statement (.encU32 value) := ⟨⟨"ENC.U32", 0x6#4, 0xF#4⟩, by decide, rfl, by simp only [encode]; decide⟩

theorem encU64 (value : Word) : Statement (.encU64 value) := ⟨⟨"ENC.U64", 0x7#4, 0xF#4⟩, by decide, rfl, by simp only [encode]; decide⟩

theorem decU8 (value : Word) : Statement (.decU8 value) := ⟨⟨"DEC.U8", 0x8#4, 0xF#4⟩, by decide, rfl, by simp only [encode]; decide⟩

theorem decU16 (value : Word) : Statement (.decU16 value) := ⟨⟨"DEC.U16", 0x9#4, 0xF#4⟩, by decide, rfl, by simp only [encode]; decide⟩

theorem decU32 (value : Word) : Statement (.decU32 value) := ⟨⟨"DEC.U32", 0xA#4, 0xF#4⟩, by decide, rfl, by simp only [encode]; decide⟩

theorem decU64 (value : Word) : Statement (.decU64 value) := ⟨⟨"DEC.U64", 0xB#4, 0xF#4⟩, by decide, rfl, by simp only [encode]; decide⟩

theorem illegal (wsel : WidthCode) (value : Word) : Statement (.illegal wsel value) :=
  ⟨⟨"ILLEGAL", 0xC#4, 0xC#4⟩, by decide, rfl, by revert wsel; simp only [encode]; decide⟩

end Sys2Proof.Laws.TableRow
end

