-- ==== Sys2Proof/Laws/Step.lean ====
section
/-! SUPPORT. What `exec` and `step` are in each phase, and every case of a step that goes on. -/

namespace Sys2Proof.Machine

/-- What a command does to a block in IDLE. -/
def acceptOf : Instr → State → State
  | .len wsel value => lenAccept wsel value
  | .encU8 value => encAccept Width.w8.code value
  | .encU16 value => encAccept Width.w16.code value
  | .encU32 value => encAccept Width.w32.code value
  | .encU64 value => encAccept Width.w64.code value
  | .decU8 _ => decAccept Width.w8.code
  | .decU16 _ => decAccept Width.w16.code
  | .decU32 _ => decAccept Width.w32.code
  | .decU64 _ => decAccept Width.w64.code
  | .illegal wsel _ => illegalAccept wsel

/-- Every meaning is the port's step with the command's own acceptance. -/
theorem exec_eq_atPort (i : Instr) (s : State) : exec i s = atPort (acceptOf i) s := by
  cases i <;> rfl

theorem acceptOf_enc (w : Width) (v : Word) : acceptOf (Instr.enc w v) = encAccept w.code v := by
  cases w <;> rfl

theorem acceptOf_dec (w : Width) (v : Word) : acceptOf (Instr.dec w v) = decAccept w.code := by
  cases w <;> rfl

/-- The four kinds of acceptance. -/
theorem acceptOf_cases (i : Instr) (s : State) :
    (∃ w v, i = .len w v ∧ acceptOf i s = finish .ok (BitVec.ofNat 64 (lenCalc v)) 0 (latchCommand w s)) ∨
    (∃ w v, i = Instr.enc w v ∧ acceptOf i s = encAccept w.code v s) ∨
    (∃ w v, i = Instr.dec w v ∧ acceptOf i s = decAccept w.code s) ∨
    (∃ w v, i = .illegal w v ∧ acceptOf i s = finish .illegalCmd 0#64 0 (latchCommand w s)) := by
  cases i with
  | len w v => exact .inl ⟨w, v, rfl, rfl⟩
  | encU8 v => exact .inr (.inl ⟨.w8, v, rfl, rfl⟩)
  | encU16 v => exact .inr (.inl ⟨.w16, v, rfl, rfl⟩)
  | encU32 v => exact .inr (.inl ⟨.w32, v, rfl, rfl⟩)
  | encU64 v => exact .inr (.inl ⟨.w64, v, rfl, rfl⟩)
  | decU8 v => exact .inr (.inr (.inl ⟨.w8, v, rfl, rfl⟩))
  | decU16 v => exact .inr (.inr (.inl ⟨.w16, v, rfl, rfl⟩))
  | decU32 v => exact .inr (.inr (.inl ⟨.w32, v, rfl, rfl⟩))
  | decU64 v => exact .inr (.inr (.inl ⟨.w64, v, rfl, rfl⟩))
  | illegal w v => exact .inr (.inr (.inr ⟨w, v, rfl, rfl⟩))

theorem acceptOf_facing (i : Instr) (s : State) (ps : List Ports) :
    acceptOf i (s.facing ps) = (acceptOf i s).facing ps := by
  cases i <;> rfl

@[simp] theorem acceptOf_inputs (i : Instr) (s : State) : (acceptOf i s).inputs = s.inputs := by
  cases i <;> rfl

theorem atPort_idle {f : State → State} {s : State} (h : s.phase = .idle) : atPort f s = .next (f s) := by
  simp [atPort, h]

theorem atPort_decRun {f : State → State} {s : State} (h : s.phase = .decRun) :
    atPort f s = .next (decStep (portsNow s).source s) := by
  simp [atPort, h]

theorem atPort_encRun {f : State → State} {s : State} (h : s.phase = .encRun) :
    atPort f s = .next (encStep (portsNow s).sink s) := by
  simp [atPort, h]

theorem atPort_unused {f : State → State} {s : State} (h : s.phase = .unused) :
    atPort f s = .fault .unusedPhase := by
  simp [atPort, h]

/-- What a step's sample makes of IDLE: the presented command's acceptance, or nothing. -/
def acceptNow (s : State) : State → State :=
  if (portsNow s).cmdValid then acceptOf (portsNow s).command else fun t => t

/-- A step without reset is the port's step and the passing of the sample. -/
theorem step_of_not_rst {s : State} (h : (portsNow s).rst = false) :
    step s = afterSample (atPort (acceptNow s) s) := by
  cases hv : (portsNow s).cmdValid <;> simp [step, stepWith, noCommand, acceptNow, exec_eq_atPort, h, hv]

theorem step_of_rst {s : State} (h : (portsNow s).rst = true) :
    step s = .next (dropSample (resetRegisters s)) := by
  simp [step, stepWith, h]

theorem step_idle {s : State} (hr : (portsNow s).rst = false) (h : s.phase = .idle) :
    step s = .next (dropSample (acceptNow s s)) := by
  rw [step_of_not_rst hr, atPort_idle h]; rfl

theorem step_decRun {s : State} (hr : (portsNow s).rst = false) (h : s.phase = .decRun) :
    step s = .next (dropSample (decStep (portsNow s).source s)) := by
  rw [step_of_not_rst hr, atPort_decRun h]; rfl

theorem step_encRun {s : State} (hr : (portsNow s).rst = false) (h : s.phase = .encRun) :
    step s = .next (dropSample (encStep (portsNow s).sink s)) := by
  rw [step_of_not_rst hr, atPort_encRun h]; rfl

theorem step_unused {s : State} (hr : (portsNow s).rst = false) (h : s.phase = .unused) :
    step s = .fault .unusedPhase := by
  rw [step_of_not_rst hr, atPort_unused h]; rfl

/-- Everything a step that goes on can be: reset, an idle step (an acceptance or a stall), a step of a running DEC, a
step of a running ENC. -/
theorem step_next_cases {s t : State} (h : step s = .next t) :
    ((portsNow s).rst = true ∧ t = dropSample (resetRegisters s)) ∨
    ((portsNow s).rst = false ∧ s.phase = .idle ∧ t = dropSample (acceptNow s s)) ∨
    ((portsNow s).rst = false ∧ s.phase = .decRun ∧ t = dropSample (decStep (portsNow s).source s)) ∨
    ((portsNow s).rst = false ∧ s.phase = .encRun ∧ t = dropSample (encStep (portsNow s).sink s)) := by
  cases hr : (portsNow s).rst
  · cases hp : s.phase
    · rw [step_idle hr hp] at h; cases h; exact .inr (.inl ⟨rfl, rfl, rfl⟩)
    · rw [step_decRun hr hp] at h; cases h; exact .inr (.inr (.inl ⟨rfl, rfl, rfl⟩))
    · rw [step_encRun hr hp] at h; cases h; exact .inr (.inr (.inr ⟨rfl, rfl, rfl⟩))
    · rw [step_unused hr hp] at h; cases h
  · rw [step_of_rst hr] at h; cases h; exact .inl ⟨rfl, rfl⟩

/-! ### A step before given samples -/

theorem step_facing_decRun {s : State} {p : Ports} {ps : List Ports} (h : s.phase = .decRun) (hr : p.rst = false) :
    step (s.facing (p :: ps)) = .next ((decStep p.source s).facing ps) := by
  rw [step_decRun (by simpa using hr) (by simpa using h), decStep_facing]; rfl

theorem step_facing_encRun {s : State} {p : Ports} {ps : List Ports} (h : s.phase = .encRun) (hr : p.rst = false) :
    step (s.facing (p :: ps)) = .next ((encStep p.sink s).facing ps) := by
  rw [step_encRun (by simpa using hr) (by simpa using h), encStep_facing]; rfl

theorem step_facing_idle {s : State} {p : Ports} {ps : List Ports} (h : s.phase = .idle) (hr : p.rst = false) :
    step (s.facing (p :: ps)) =
      .next ((if p.cmdValid then acceptOf p.command s else s).facing ps) := by
  rw [step_idle (by simpa using hr) (by simpa using h)]
  cases hv : p.cmdValid <;> simp [acceptNow, hv, acceptOf_facing] <;> rfl

/-! ### Runs -/

@[simp] theorem run_zero (s : State) : run 0 s = .next s := rfl

/-- A run of one step more. -/
theorem run_succ_eq (k : Nat) (s : State) :
    run (k + 1) s = match step s with
      | .next t => run k t
      | .fault f => .fault f
      | .refused r => .refused r := by
  have next : ∀ (M : Host.Core) (u v : M.State), M.step u = .next v → M.run (k + 1) u = M.run k v :=
    fun M u v h => by simp [Host.Core.run, h]
  have fault : ∀ (M : Host.Core) (u : M.State) (f : M.Fault), M.step u = .fault f → M.run (k + 1) u = .fault f :=
    fun M u f h => by simp [Host.Core.run, h]
  have refused : ∀ (M : Host.Core) (u : M.State) (r : M.Refusal),
      M.step u = .refused r → M.run (k + 1) u = .refused r :=
    fun M u r h => by simp [Host.Core.run, h]
  cases h : step s with
  | next t => exact next Sys2Proof.core s t h
  | fault f => exact fault Sys2Proof.core s f h
  | refused r => exact refused Sys2Proof.core s r h

/-- The first step of a run. -/
theorem run_succ {s t : State} (k : Nat) (h : step s = .next t) : run (k + 1) s = run k t := by
  rw [run_succ_eq, h]

/-- Two runs one after the other. -/
theorem run_add {s t : State} (j k : Nat) (h : run j s = .next t) : run (j + k) s = run k t := by
  induction j generalizing s with
  | zero => cases h; rw [Nat.zero_add]
  | succ j ih =>
    rw [run_succ_eq] at h
    cases hs : step s with
    | next u =>
      rw [hs] at h
      rw [Nat.add_right_comm, run_succ _ hs]
      exact ih h
    | fault f => rw [hs] at h; cases h
    | refused f => rw [hs] at h; cases h

/-! ### Several blocks -/

/-- A step of block `k` is that block's step, and nothing else of the list changes. -/
theorem stepBlock_eq_some_iff {k : Nat} {bs bs' : List State} :
    stepBlock k bs = some bs' ↔ ∃ s t, bs[k]? = some s ∧ step s = .next t ∧ bs' = bs.set k t := by
  simp only [stepBlock]
  cases bs[k]? with
  | none => simp
  | some s =>
    cases hs : step s with
    | next t => simp [hs, eq_comm]
    | fault f => simp [hs]
    | refused r => simp [hs]

end Sys2Proof.Machine
end

