-- ==== Sys2Proof/Tests/Slice0.lean ====
section
/-! SUPPORT. The model's own tests. Expected values come from the spec's tables and vectors (30_encoding.md R79, R80, R82; the corner cases of R100, R131 to R134, R156 to R159; 95_test_vectors.md), named at each test. Then one witness for the hypotheses of each statement that has any. -/

open Sys2Proof Sys2Proof.Machine

namespace Sys2Proof.Tests

/-! ### Helpers -/

/-- The state a step goes on in (the reset state where it stops; no test rests on that). -/
def after (o : Host.Outcome State Fault Refusal) : State :=
  match o with
  | .next s => s
  | .fault _ => State.reset
  | .refused _ => State.reset

/-- The source answers `Byte(b)`. -/
def sourceByte (b : Byte) : Ports := { Ports.quiet with inValid := true, inData := b }

/-- The source answers `Fail(e)`. -/
def sourceFail (e : IoCode) : Ports := { Ports.quiet with inValid := true, inFail := true, inCode := e }

/-- The sink answers `Ack`. -/
def sinkAck : Ports := { Ports.quiet with outReady := true }

/-- The sink answers `Fail(e)`. -/
def sinkFail (e : IoCode) : Ports := { Ports.quiet with outReady := true, outFail := true, outCode := e }

/-- Reset is asserted, with a command and both channels driven besides. -/
def resetAndAll : Ports :=
  { Ports.present 0x8#4 0#64 with rst := true, inValid := true, inData := 0x80#8, outReady := true }

/-- A DEC running at byte index `i`, before one sample. -/
def decAt (w : Width) (acc : Word) (i : BitVec 4) (p : Ports) : State :=
  { State.reset with phase := .decRun, wsel := w.code, acc := acc, idx := i, count := i, inputs := [p] }

/-- An ENC running with `x` to go and `count` bytes written, before one sample. -/
def encAt (x : Word) (count : BitVec 4) (p : Ports) : State :=
  { State.reset with phase := .encRun, x := x, count := count, inputs := [p] }

/-- The step's state. -/
def stepped (s : State) : State := after (step s)

/-! ### The checks of WellFormed.lean refuse ill-formed terms (R83, R82) -/

theorem test_wf_refuses_len_operand : AsmLine.wf .w32 (.len (2 ^ 64)) = false := by decide
theorem test_wf_refuses_enc_operand : AsmLine.wf .w32 (.enc .w8 0x1FF) = false := by decide
theorem test_wf_refuses_usize_operand : AsmLine.wf .w32 (.encUsize (2 ^ 32)) = false := by decide
theorem test_wf_takes_usize_operand : AsmLine.wf .w64 (.encUsize (2 ^ 32)) = true := by decide
theorem test_wf_refuses_cw_word : AsmLine.wf .w32 (.cw 16 0) = false := by decide
theorem test_wf_refuses_cw_operand : AsmLine.wf .w32 (.cw 12 (2 ^ 64)) = false := by decide
theorem test_mnemonic_form_refuses_len_alias : Instr.hasMnemonicForm (.len 3#2 0#64) = false := by decide
theorem test_mnemonic_form_refuses_wide_enc : Instr.hasMnemonicForm (.encU8 0x1FF#64) = false := by decide
theorem test_mnemonic_form_refuses_dec_operand : Instr.hasMnemonicForm (.decU32 0xDEAD#64) = false := by decide
theorem test_mnemonic_form_refuses_reserved : Instr.hasMnemonicForm (.illegal 0#2 0#64) = false := by decide

/-! ### Decoding: the words of R80, bit by bit -/

theorem test_decode_len : decode 0b0000#4 300#64 = .len 0b00#2 300#64 := by decide
theorem test_decode_len_wsel : decode 0b0011#4 7#64 = .len 0b11#2 7#64 := by decide
theorem test_decode_encU8 : decode 0b0100#4 0x1FF#64 = .encU8 0x1FF#64 := by decide
theorem test_decode_encU16 : decode 0b0101#4 1#64 = .encU16 1#64 := by decide
theorem test_decode_encU32 : decode 0b0110#4 1#64 = .encU32 1#64 := by decide
theorem test_decode_encU64 : decode 0b0111#4 1#64 = .encU64 1#64 := by decide
theorem test_decode_decU8 : decode 0b1000#4 1#64 = .decU8 1#64 := by decide
theorem test_decode_decU16 : decode 0b1001#4 1#64 = .decU16 1#64 := by decide
theorem test_decode_decU32 : decode 0b1010#4 0xDEAD#64 = .decU32 0xDEAD#64 := by decide
theorem test_decode_decU64 : decode 0b1011#4 1#64 = .decU64 1#64 := by decide
theorem test_decode_illegal : decode 0b1100#4 0x7B#64 = .illegal 0b00#2 0x7B#64 := by decide
theorem test_decode_illegal_wsel : decode 0b1111#4 0#64 = .illegal 0b11#2 0#64 := by decide
theorem test_decode_table_word : decodeTableWord 8 0xA = some (.decU32 0#64) := by decide
theorem test_decode_table_word_refuses : decodeTableWord 8 0x10 = none := by decide
theorem test_decode_numbers_refuses_word : decodeNumbers 16 0 = .error .wordOutsideFourBits := by rfl
theorem test_decode_numbers_refuses_operand : decodeNumbers 0 (2 ^ 64) = .error .operandOutsideSixtyFourBits := by rfl

/-! ### The width table (R79) -/

theorem test_max_idx : (maxIdx .w8, maxIdx .w16, maxIdx .w32, maxIdx .w64) = (1, 2, 4, 9) := by decide
theorem test_f_bits : (fBits .w8, fBits .w16, fBits .w32, fBits .w64) = (1, 2, 4, 1) := by decide
theorem test_f_mask : (fMask .w8, fMask .w16, fMask .w32, fMask .w64) = (0x01, 0x03, 0x0F, 0x01) := by decide

/-! ### LEN (vectors of 95_test_vectors.md 2.2) -/

theorem test_len_300 :
    let t := after (execLen 0#2 300#64 State.reset)
    (t.result, t.status, t.count, t.done, t.phase) = (2#64, .ok, 0#4, true, .idle) := by decide
theorem test_len_max_wsel_ignored :
    let t := after (execLen 1#2 0xFFFFFFFFFFFFFFFF#64 State.reset)
    (t.result, t.wsel) = (10#64, 1#2) := by decide

/-! ### ENC (R156 to R159; E5, E10, E13, E16) -/

theorem test_encU8_masks : (after (execEncU8 0x1FF#64 State.reset)).x = 0xFF#64 := by decide
theorem test_encU8_accepts :
    let t := after (execEncU8 200#64 { State.reset with done := true, result := 9#64 })
    (t.phase, t.done, t.count, t.result) = (.encRun, false, 0#4, 9#64) := by decide
theorem test_encU16_masks : (after (execEncU16 0x12345#64 State.reset)).x = 0x2345#64 := by decide
theorem test_encU32_masks : (after (execEncU32 0x100000000#64 State.reset)).x = 0#64 := by decide
theorem test_encU32_code : (after (execEncU32 0#64 State.reset)).wsel = 0b10#2 := by decide
theorem test_encU64_keeps_all :
    (after (execEncU64 0x8000000000000000#64 State.reset)).x = 0x8000000000000000#64 := by decide
/-- P1, line 2: 300 offers 0xAC, and an Ack leaves 2. -/
theorem test_enc_step_more :
    let s := encAt 300#64 0#4 sinkAck
    (outData s, (stepped s).x, (stepped s).count, (stepped s).phase, (stepped s).written) =
      (0xAC#8, 2#64, 1#4, .encRun, [0xAC#8]) := by decide
theorem test_enc_step_last :
    let s := encAt 2#64 1#4 sinkAck
    (outData s, (stepped s).result, (stepped s).count, (stepped s).status, (stepped s).done) =
      (0x02#8, 2#64, 2#4, .ok, true) := by decide
/-- E17: the fifth byte fails with code 2 after four. -/
theorem test_enc_step_fails :
    let t := stepped (encAt 0xFFFFFFFFF#64 4#4 (sinkFail 2))
    (t.status, t.result, t.count, t.ioCode, t.written, t.phase) = (.ioErr, 0#64, 4#4, 2, [], .idle) := by decide

/-! ### DEC (R131 to R134; S10, S11, V10, V12, V15, V16, V22, V23) -/

theorem test_decU8_accepts :
    let t := after (execDecU8 0xDEAD#64 { State.reset with acc := 5#64, idx := 3#4, count := 2#4 })
    (t.phase, t.wsel, t.acc, t.idx, t.count, t.done) = (.decRun, 0b00#2, 0#64, 0#4, 0#4, false) := by decide
theorem test_decU16_accepts : (after (execDecU16 0#64 State.reset)).wsel = 0b01#2 := by decide
theorem test_decU32_accepts : (after (execDecU32 0#64 State.reset)).wsel = 0b10#2 := by decide
theorem test_decU64_accepts : (after (execDecU64 0#64 State.reset)).wsel = 0b11#2 := by decide
theorem test_decU8_terminal_in_mask :
    let t := stepped (decAt .w8 0#64 1#4 (sourceByte 0x01#8))
    (t.status, t.result, t.count) = (.ok, 128#64, 2#4) := by decide
theorem test_decU8_terminal_above_mask :
    let t := stepped (decAt .w8 0x2C#64 1#4 (sourceByte 0x02#8))
    (t.status, t.result, t.count, t.consumed) = (.overflow, 0#64, 2#4, [0x02#8]) := by decide
theorem test_decU16_terminal_mask_not_count :
    (stepped (decAt .w16 0#64 2#4 (sourceByte 0x03#8))).result = 49152#64 := by decide
theorem test_decU16_terminal_above_mask :
    (stepped (decAt .w16 0x3FFF#64 2#4 (sourceByte 0x04#8))).status = .overflow := by decide
theorem test_decU32_terminal_in_mask :
    (stepped (decAt .w32 0xFFFFFFF#64 4#4 (sourceByte 0x0F#8))).result = 0xFFFFFFFF#64 := by decide
theorem test_decU32_terminal_above_mask :
    (stepped (decAt .w32 0xFFFFFFF#64 4#4 (sourceByte 0x10#8))).status = .overflow := by decide
theorem test_decU64_terminal_bit_63 :
    (stepped (decAt .w64 0#64 9#4 (sourceByte 0x01#8))).result = 0x8000000000000000#64 := by decide
theorem test_decU64_terminal_past_max_idx :
    (stepped (decAt .w64 0#64 10#4 (sourceByte 0x00#8))).status = .overflow := by decide
/-- V28: after many continuation bytes `idx` stays 10 and `count` 15. -/
theorem test_dec_continuation_saturates :
    let t := stepped { decAt .w64 0#64 10#4 (sourceByte 0x80#8) with count := 15#4 }
    (t.phase, t.idx, t.count, t.acc, t.done) = (.decRun, 10#4, 15#4, 0#64, false) := by decide
/-- V20: `[0x80, Fail(5)]`. -/
theorem test_dec_source_fails :
    let t := stepped (decAt .w32 0#64 1#4 (sourceFail 5))
    (t.status, t.result, t.count, t.ioCode, t.consumed) = (.ioErr, 0#64, 1#4, 5, []) := by decide

/-! ### The reserved words, reset, the busy rule (R-1, R-4, R-5) -/

theorem test_illegal_completes :
    let t := after (execIllegal 0#2 0x7B#64 State.reset)
    (t.status, t.result, t.count, t.ioCode, t.done, t.phase) = (.illegalCmd, 0#64, 0#4, 0, true, .idle) := by decide
theorem test_reset_during_dec :
    let t := stepped { decAt .w8 0x80#64 2#4 resetAndAll with consumed := [0x80#8, 0x80#8] }
    t = { State.reset with consumed := [0x80#8, 0x80#8] } := by decide
theorem test_command_waits_while_encoding :
    let t := stepped (encAt 300#64 0#4 { sinkAck with cmdValid := true, cmdOp := 2#2 })
    (t.phase, t.x, t.count) = (.encRun, 2#64, 1#4) := by decide
theorem test_fetch_word_runs :
    (stepped (State.reset.withFetchWord 8 0xC)).status = .illegalCmd := by decide

/-! ### The functional forms (V7, V14, V26, E9, R130) -/

theorem test_decode_form_no_early_stop :
    decodeForm .w8 ([0x81#8, 0x81#8, 0x80#8, 0x80#8, 0x00#8].map .byte) = some ⟨.overflow, 0#64, 0, 5⟩ := by decide
theorem test_decode_form_three_groups :
    decodeForm .w32 ([0xE5#8, 0x8E#8, 0x26#8].map .byte) = some ⟨.ok, 624485#64, 0, 3⟩ := by decide
theorem test_decode_form_past_bit_63 :
    decodeForm .w64 ((List.replicate 20 0xFF#8 ++ [0x00#8]).map .byte) = some ⟨.overflow, 0#64, 0, 21⟩ := by decide
theorem test_canonical_u16_max : canonical 0xFFFF#64 = [0xFF#8, 0xFF#8, 0x03#8] := by decide
theorem test_wire_value_non_minimal : wireValue [0xFF#8, 0x80#8, 0x00#8] = 127 := by decide

/-! ### The assembler (R82, R83; P3) -/

theorem test_asm_enc : assembleText .w32 "ENC.U32 300 ; two bytes" = .ok (some (0x6#4, 300#64)) := by rfl
theorem test_asm_cw : assembleText .w32 ".cw 4, 0x1FF" = .ok (some (0x4#4, 0x1FF#64)) := by rfl
theorem test_asm_usize : assembleText .w64 "DEC.USIZE" = .ok (some (0xB#4, 0#64)) := by rfl
theorem test_asm_comment : assembleText .w32 "  ; nothing" = .ok none := by rfl
theorem test_asm_refuses_enc : assembleText .w32 "ENC.U8 0x1FF" = .error .encOperandTooWide := by rfl
theorem test_asm_refuses_word : assembleText .w32 ".cw 16" = .error .cwWordOutOfRange := by rfl
theorem test_asm_refuses_mnemonic : assembleText .w32 "NOP" = .error .unknownMnemonic := by rfl

/-! ### Witnesses: each statement's hypotheses hold together somewhere -/

theorem witness_StepRunsThePresentedCommand_next :
    ∃ (s : State) (p : Ports) (t : State), s.inputs = [p] ∧ p.rst = false ∧ p.cmdValid = true ∧
      exec (decode (CmdWord.make p.cmdOp p.cmdWsel) p.cmdValue) s = .next t :=
  ⟨State.reset.facing [Ports.present 0x0#4 300#64], _, _, rfl, rfl, rfl,
    by rw [exec_eq_atPort]; exact atPort_idle rfl⟩

theorem witness_StepRunsThePresentedCommand_fault :
    ∃ (s : State) (p : Ports) (f : Fault), s.inputs = [p] ∧ p.rst = false ∧ p.cmdValid = true ∧
      exec (decode (CmdWord.make p.cmdOp p.cmdWsel) p.cmdValue) s = .fault f :=
  ⟨{ State.reset with phase := .unused, inputs := [Ports.present 0x0#4 300#64] }, _, _, rfl, rfl, rfl,
    by rw [exec_eq_atPort]; exact atPort_unused rfl⟩

theorem witness_PresentedWordRunsAtTheNextStep : decodeTableWord 8 0xF = some (.illegal 3#2 0#64) := by decide

theorem witness_ResetStepGivesResetValues :
    ∃ (s : State) (p : Ports), s.phase = .unused ∧ s.inputs = [p] ∧ p.rst = true :=
  ⟨{ State.reset with phase := .unused, inputs := [resetAndAll] }, _, rfl, rfl, rfl⟩

/-- A stall in each phase: with nothing on the command port, with bytes offered to an idle block, with a command
offered to a running one, and after the last sample. -/
theorem witness_StallLeavesEveryRegister :
    ∀ s ∈ [State.reset, State.reset.facing [sourceByte 0x01#8], decAt .w8 0#64 0#4 sinkAck,
        encAt 1#64 0#4 (sourceByte 0#8)],
      s.phase ≠ .unused ∧ (portsNow s).rst = false ∧ (s.phase = .idle → (portsNow s).cmdValid = false) ∧
      (s.phase = .decRun → (portsNow s).inValid = false) ∧ (s.phase = .encRun → (portsNow s).outReady = false) := by
  decide

theorem witness_CommandWaitsWhileBusy :
    ∃ (s : State) (p : Ports), s.phase ≠ .idle ∧ s.inputs = [p] :=
  ⟨encAt 300#64 0#4 sinkAck, _, by decide, rfl⟩

theorem witness_UnusedPhaseFaults :
    ∃ s : State, s.phase = .unused ∧ (portsNow s).rst = false :=
  ⟨{ State.reset with phase := .unused }, rfl, rfl⟩

/-- For LEN, the reserved words, and the acceptance of ENC and DEC. -/
theorem witness_idle : State.reset.phase = .idle := by decide

/-- The two clauses of LenCalcFollowsTheShiftLoop meet between 127 and 128. -/
theorem witness_LenCalcFollowsTheShiftLoop : (127#64).toNat < 128 ∧ 128 ≤ (128#64).toNat := by decide

/-- Index 9 and index 10, the two sides of Accum's bound, with the least and the greatest continuation byte. -/
theorem witness_DecContinuationByteStep :
    ∀ sp ∈ [(decAt .w64 0#64 9#4 (sourceByte 0x80#8), sourceByte 0x80#8),
        (decAt .w64 0#64 10#4 (sourceByte 0xFF#8), sourceByte 0xFF#8)],
      sp.1.phase = .decRun ∧ sp.1.inputs = [sp.2] ∧ sp.2.rst = false ∧ sp.2.inValid = true ∧ sp.2.inFail = false ∧
      128 ≤ sp.2.inData.toNat := by
  decide

/-- A terminal byte at the last index, at the mask and one above it, and past the last index; and an accumulator that
no run reaches, over which the narrowing check fires. -/
theorem witness_DecTerminalByteStep :
    ∀ sp ∈ [(decAt .w32 0#64 4#4 (sourceByte 0x0F#8), sourceByte 0x0F#8),
        (decAt .w32 0#64 4#4 (sourceByte 0x10#8), sourceByte 0x10#8),
        (decAt .w32 0#64 5#4 (sourceByte 0x00#8), sourceByte 0x00#8),
        (decAt .w32 0x100000000#64 0#4 (sourceByte 0x7F#8), sourceByte 0x7F#8)],
      (sp.1.wsel, 32, 4, 0x0F) ∈
        [(0b00#2, 8, 1, 0x01), (0b01#2, 16, 2, 0x03), (0b10#2, 32, 4, 0x0F), (0b11#2, 64, 9, 0x01)] ∧
      sp.1.phase = .decRun ∧ sp.1.inputs = [sp.2] ∧ sp.2.rst = false ∧ sp.2.inValid = true ∧ sp.2.inFail = false ∧
      sp.2.inData.toNat < 128 := by
  decide

/-- A state of the invariant in which a DEC.U8 is about to take its last possible byte. -/
theorem inv_decAt_last : Inv 1 (decAt .w8 0x7F#64 1#4 (sourceByte 0x01#8)) where
  phase_used := by decide
  idx_le := by decide
  running_not_done := by decide
  dec_idx := by decide
  dec_acc := by decide
  enc_x := by decide
  enc_count := by decide
  enc_nonzero := by decide
  result_zero := by decide
  code_zero := by decide
  code_fits := by decide
  inputs_fit := by decide

theorem witness_NarrowingCheckNeverFires :
    ∃ (s : State) (b : Byte), Inv 1 s ∧ s.phase = .decRun ∧ (portsNow s).rst = false ∧
      (portsNow s).source = some (.byte b) ∧ continues b = false ∧ s.idx.toNat = maxIdx (Width.ofCode s.wsel) ∧
      boundaryOverflow (Width.ofCode s.wsel) s.idx.toNat (payload b) = false :=
  ⟨_, 0x01#8, inv_decAt_last, by decide, by decide, by decide, by decide, by decide, by decide⟩

theorem witness_DecSourceFailureStep :
    ∃ (s : State) (p : Ports), s.phase = .decRun ∧ s.inputs = [p] ∧ p.rst = false ∧ p.inValid = true ∧ p.inFail = true :=
  ⟨decAt .w32 0#64 0#4 (sourceFail 9), _, rfl, rfl, rfl, rfl, rfl⟩

theorem witness_AccumIsAdditionOfAGroup : (0x7FFFFFFFFFFFFFFF#64).toNat < 2 ^ (7 * 9) := by decide

/-- The longest DEC.U64 varint, nine continuation bytes and the terminal byte 0x01. -/
theorem accepts_longest : Accepts .w64 (List.replicate 9 0xFF#8) 0x01#8 :=
  ⟨by decide, by decide, by decide, by decide⟩

theorem witness_DecCompletesOnAcceptedVarints :
    ∃ (cs : List Byte) (b : Byte) (qs : List Ports) (p : Ports), Accepts .w16 cs b ∧ NoReset (qs ++ [p]) ∧
      qs.filterMap Ports.source = cs.map SrcResponse.byte ∧ p.source = some (.byte b) :=
  ⟨[0x80#8, 0x80#8], 0x03#8, [sourceByte 0x80#8, Ports.quiet, sourceByte 0x80#8], sourceByte 0x03#8,
    ⟨by decide, by decide, by decide, by decide⟩, by decide, by decide, by decide⟩

/-- At the last index above the mask, and one index further with payload 0. -/
theorem witness_DecOverflowsOutsideTheBounds :
    ∃ (qs qs' : List Ports) (p p' : Ports),
      (Overflows .w8 [0x80#8] 0x02#8 ∧ NoReset (qs ++ [p]) ∧
        qs.filterMap Ports.source = [0x80#8].map SrcResponse.byte ∧ p.source = some (.byte 0x02#8)) ∧
      (Overflows .w8 [0x80#8, 0x80#8] 0x00#8 ∧ NoReset (qs' ++ [p']) ∧
        qs'.filterMap Ports.source = [0x80#8, 0x80#8].map SrcResponse.byte ∧ p'.source = some (.byte 0x00#8)) :=
  ⟨[sourceByte 0x80#8], [sourceByte 0x80#8, sourceByte 0x80#8], sourceByte 0x02#8, sourceByte 0x00#8,
    ⟨⟨by decide, by decide, by decide⟩, by decide, by decide, by decide⟩,
    ⟨⟨by decide, by decide, by decide⟩, by decide, by decide, by decide⟩⟩

theorem witness_DecHangsOnContinuationBytes :
    ∃ (qs : List Ports) (cs : List Byte), NoReset qs ∧ qs.filterMap Ports.source = cs.map SrcResponse.byte ∧
      (∀ c ∈ cs, continues c = true) ∧ cs.length = 20 :=
  ⟨List.replicate 20 (sourceByte 0x80#8), List.replicate 20 0x80#8, by decide, by decide, by decide, by decide⟩

/-- Samples on which `Decode` is Running, and samples on which it completes. -/
theorem witness_StepRulesAgreeWithDecode :
    NoReset [sourceByte 0x80#8] ∧ decodeForm .w8 ([sourceByte 0x80#8].filterMap Ports.source) = none ∧
    NoReset [sourceByte 0x80#8, sourceFail 5] ∧
    decodeForm .w8 ([sourceByte 0x80#8, sourceFail 5].filterMap Ports.source) = some ⟨.ioErr, 0#64, 5, 1⟩ := by
  decide

theorem witness_OfferedByteIsEncByte :
    128 ≤ (encAt 128#64 0#4 sinkAck).x.toNat ∧ (encAt 127#64 0#4 sinkAck).x.toNat < 128 := by decide

/-- The last premise at its bound, with more groups to come and without. -/
theorem witness_EncAcknowledgedByteStep :
    ∀ s ∈ [encAt 128#64 9#4 sinkAck, encAt 127#64 9#4 sinkAck],
      s.phase = .encRun ∧ s.inputs = [sinkAck] ∧ sinkAck.rst = false ∧ sinkAck.outReady = true ∧
      sinkAck.outFail = false ∧ s.count.toNat ≤ 9 := by
  decide

theorem witness_EncSinkFailureStep :
    ∃ (s : State) (p : Ports), s.phase = .encRun ∧ s.inputs = [p] ∧ p.rst = false ∧ p.outReady = true ∧
      p.outFail = true :=
  ⟨encAt 300#64 0#4 (sinkFail 7), _, rfl, rfl, rfl, rfl, rfl⟩

theorem witness_EncWritesTheCanonicalEncoding :
    ∃ (v : Word) (qs : List Ports) (p : Ports), NoReset (qs ++ [p]) ∧
      qs.filterMap Ports.sink = List.replicate (lenCalc (BitVec.ofNat 64 (v.toNat % 2 ^ Width.w32.bits)) - 1) .ack ∧
      p.sink = some .ack :=
  ⟨300#64, [Ports.quiet, sinkAck], sinkAck, by decide, by decide, by decide⟩

theorem witness_EncFailureLeavesAPrefix :
    ∃ (v : Word) (qs : List Ports) (p : Ports) (k : Nat) (e : IoCode), NoReset (qs ++ [p]) ∧
      k < lenCalc (BitVec.ofNat 64 (v.toNat % 2 ^ Width.w32.bits)) ∧
      qs.filterMap Ports.sink = List.replicate k .ack ∧ p.sink = some (.fail e) :=
  ⟨300#64, [sinkAck], sinkFail 2, 1, 2, by decide, by decide, by decide, by decide⟩

/-- A canonical input and a non-minimal one. -/
theorem witness_ReencodingGivesBackCanonicalInputsOnly :
    Accepts .w8 [0x80#8] 0x01#8 ∧ Accepts .w8 [0x80#8] 0x00#8 :=
  ⟨⟨by decide, by decide, by decide, by decide⟩, ⟨by decide, by decide, by decide, by decide⟩⟩

theorem witness_DecodeOfCanonicalIsTheValue : (255#64).toNat < 2 ^ Width.w8.bits := by decide

theorem witness_EncodeThenDecodeReturnsTheOperand :
    ∃ (v : Word) (qs ps : List Ports) (p q : Ports) (cs : List Byte) (b : Byte),
      v.toNat < 2 ^ Width.w32.bits ∧ NoReset (qs ++ [p]) ∧
      qs.filterMap Ports.sink = List.replicate (lenCalc v - 1) .ack ∧ p.sink = some .ack ∧ NoReset (ps ++ [q]) ∧
      ps.filterMap Ports.source = cs.map SrcResponse.byte ∧ q.source = some (.byte b) ∧ canonical v = cs ++ [b] :=
  ⟨300#64, [sinkAck], [sourceByte 0xAC#8], sinkAck, sourceByte 0x02#8, [0xAC#8], 0x02#8,
    by decide, by decide, by decide, by decide, by decide, by decide, by decide, by decide⟩

/-- For StepKeepsTheInvariant and NoStepStopsWithinTheInvariant: a running state of the invariant, and its step. -/
theorem witness_StepKeepsTheInvariant : ∃ s t : State, Inv 1 s ∧ step s = .next t :=
  ⟨_, _, inv_decAt_last, step_decRun rfl rfl⟩

/-- A step that clears `done`. -/
theorem witness_OutcomeWrittenOnlyAtCompletion :
    ∃ s t : State, (portsNow s).rst = false ∧ step s = .next t ∧ s.done = true ∧ t.done = false :=
  ⟨{ State.reset with done := true, inputs := [Ports.present 0x6#4 300#64] }, _, rfl, step_idle rfl rfl, by decide,
    by decide⟩

/-- Each of the three errors is some step's outcome. -/
theorem witness_ErrorsHaveTheirOnlyCauses :
    (∃ s t : State, (portsNow s).rst = false ∧ step s = .next t ∧ t.status = .overflow) ∧
    (∃ s t : State, (portsNow s).rst = false ∧ step s = .next t ∧ t.status = .ioErr) ∧
    (∃ s t : State, (portsNow s).rst = false ∧ step s = .next t ∧ t.status = .illegalCmd) :=
  ⟨⟨decAt .w8 0#64 1#4 (sourceByte 0x02#8), _, rfl, step_decRun rfl rfl, by decide⟩,
    ⟨encAt 300#64 0#4 (sinkFail 7), _, rfl, step_encRun rfl rfl, by decide⟩,
    ⟨State.reset.facing [Ports.present 0xC#4 0#64], _, rfl, step_idle rfl rfl, by decide⟩⟩

theorem witness_BytesMoveOneAtATime :
    ∃ s t : State, step s = .next t ∧ t.written = [0xAC#8] :=
  ⟨encAt 300#64 0#4 sinkAck, _, step_encRun rfl rfl, by decide⟩

theorem witness_EncoderAndDecoderAreIndependent :
    (∃ s t : State, (portsNow s).rst = false ∧ step s = .next t ∧ s.phase = .decRun) ∧
    (∃ s t : State, (portsNow s).rst = false ∧ step s = .next t ∧ s.phase = .encRun) :=
  ⟨⟨decAt .w8 0#64 1#4 (sourceByte 0x02#8), _, rfl, step_decRun rfl rfl, rfl⟩,
    ⟨encAt 300#64 0#4 sinkAck, _, rfl, step_encRun rfl rfl, rfl⟩⟩

/-- Two different idle blocks facing one command; and blocks that agree though their outcomes differ. -/
theorem witness_CommandsAreStatelessBetweenEachOther :
    (∃ s t : State, s ≠ t ∧ s.phase = .idle ∧ t.phase = .idle ∧ s.inputs = t.inputs ∧ (portsNow s).rst = false ∧
      (portsNow s).cmdValid = true) ∧
    (∃ s t : State, s ≠ t ∧ Agree s t ∧ s.phase ≠ .unused) :=
  ⟨⟨State.reset.facing [Ports.present 0xA#4 0#64],
      { State.reset with acc := 5#64, result := 7#64, done := true, inputs := [Ports.present 0xA#4 0#64] },
      by decide, rfl, rfl, rfl, rfl, rfl⟩,
    ⟨decAt .w8 0#64 0#4 Ports.quiet, { decAt .w8 0#64 0#4 Ports.quiet with result := 7#64 }, by decide,
      ⟨rfl, rfl, rfl, rfl, by decide, by decide, by decide⟩, by decide⟩⟩

theorem witness_BlocksAreIndependent :
    ∃ bs', stepBlock 1 [State.reset, encAt 300#64 0#4 sinkAck] = some bs' :=
  ⟨_, stepBlock_eq_some_iff.2 ⟨_, _, rfl, step_encRun rfl rfl, rfl⟩⟩

theorem witness_SystemInvariantIsKept :
    ∃ (c : OpenParams) (bs : List State), c.Valid ∧ SystemInv c bs ∧ 0 < c.blocks :=
  ⟨⟨.w64, 1, 1⟩, [decAt .w8 0x7F#64 1#4 (sourceByte 0x01#8)], by decide,
    ⟨rfl, fun s hs => by rw [List.mem_singleton.1 hs]; exact inv_decAt_last⟩, by decide⟩

theorem witness_AssemblerWritesTheNamedCommand :
    ∃ r, assemble .w32 (.enc .w32 300) = .ok r := ⟨_, rfl⟩

end Sys2Proof.Tests
end

section
/-! Every operation keeps the invariant, and so does every step of a block and of a system (10_state.md R35,
60_exceptions.md R192). -/

namespace Sys2Proof.Machine

variable {errW : Nat} {s : State}

/-! ### The codes at the ports -/

theorem Inv.portsNow_fits (h : Inv errW s) : (portsNow s).Fits errW := by
  cases hi : s.inputs with
  | nil => simp [portsNow, hi, Ports.quiet]
  | cons p ps =>
    rw [portsNow_of_inputs hi]
    exact h.inputs_fit p (by simp [hi])

theorem Inv.source_code_lt (h : Inv errW s) {e : IoCode} (he : (portsNow s).source = some (.fail e)) :
    e < 2 ^ errW := by
  obtain ⟨-, -, rfl⟩ := (source_eq_fail_iff _ _).1 he
  exact h.portsNow_fits.1

theorem Inv.sink_code_lt (h : Inv errW s) {e : IoCode} (he : (portsNow s).sink = some (.fail e)) :
    e < 2 ^ errW := by
  obtain ⟨-, -, rfl⟩ := (sink_eq_fail_iff _ _).1 he
  exact h.portsNow_fits.2

/-! ### The named updates -/

theorem inv_dropSample (h : Inv errW s) : Inv errW (dropSample s) :=
  { h with inputs_fit := fun p hp => h.inputs_fit p (List.mem_of_mem_tail hp) }

theorem inv_resetRegisters (h : Inv errW s) : Inv errW (resetRegisters s) where
  phase_used := nofun
  idx_le := Nat.zero_le _
  running_not_done := fun _ => rfl
  dec_idx := nofun
  dec_acc := nofun
  enc_x := nofun
  enc_count := nofun
  enc_nonzero := nofun
  result_zero := fun _ => rfl
  code_zero := fun _ => rfl
  code_fits := Nat.two_pow_pos errW
  inputs_fit := h.inputs_fit

/-- Ending a command leaves only the clauses on the outcome to show: the block is idle, and `idx` and the samples
stay. -/
theorem inv_finish {st : Status} {r : Word} {e : IoCode} (hidx : s.idx.toNat ≤ Config.idxMax)
    (hin : ∀ p ∈ s.inputs, p.Fits errW) (hr : st ≠ .ok → r = 0#64) (hc : st ≠ .ioErr → e = 0)
    (hf : e < 2 ^ errW) : Inv errW (finish st r e s) where
  phase_used := nofun
  idx_le := hidx
  running_not_done := fun hp => absurd rfl hp
  dec_idx := nofun
  dec_acc := nofun
  enc_x := nofun
  enc_count := nofun
  enc_nonzero := nofun
  result_zero := hr
  code_zero := hc
  code_fits := hf
  inputs_fit := hin

/-! ### Acceptance -/

theorem inv_decAccept (h : Inv errW s) (w : WidthCode) : Inv errW (decAccept w s) where
  phase_used := nofun
  idx_le := Nat.zero_le _
  running_not_done := fun _ => rfl
  dec_idx := fun _ => rfl
  dec_acc := fun _ _ => Nat.one_pos
  enc_x := nofun
  enc_count := nofun
  enc_nonzero := nofun
  result_zero := h.result_zero
  code_zero := h.code_zero
  code_fits := h.code_fits
  inputs_fit := h.inputs_fit

theorem inv_encAccept (h : Inv errW s) (w : WidthCode) (v : Word) : Inv errW (encAccept w v s) where
  phase_used := nofun
  idx_le := h.idx_le
  running_not_done := fun _ => rfl
  dec_idx := nofun
  dec_acc := nofun
  enc_x := fun _ => (encOperand (Width.ofCode w) v).isLt
  enc_count := fun _ => Nat.zero_le _
  enc_nonzero := fun _ hc => absurd hc (Nat.lt_irrefl 0)
  result_zero := h.result_zero
  code_zero := h.code_zero
  code_fits := h.code_fits
  inputs_fit := h.inputs_fit

theorem inv_acceptOf (h : Inv errW s) (i : Instr) : Inv errW (acceptOf i s) := by
  have hpos := Nat.two_pow_pos errW
  obtain ⟨w, v, -, ha⟩ | ⟨w, v, -, ha⟩ | ⟨w, v, -, ha⟩ | ⟨w, v, -, ha⟩ := acceptOf_cases i s <;> rw [ha]
  · exact inv_finish h.idx_le h.inputs_fit (fun hst => absurd rfl hst) (fun _ => rfl) hpos
  · exact inv_encAccept h w.code v
  · exact inv_decAccept h w.code
  · exact inv_finish h.idx_le h.inputs_fit (fun _ => rfl) (fun _ => rfl) hpos

theorem inv_acceptNow (h : Inv errW s) : Inv errW (acceptNow s s) := by
  unfold acceptNow
  split
  · exact inv_acceptOf h _
  · exact h

/-! ### A byte of a running DEC -/

/-- A group put in at bit `7 * i` over an accumulator below it stays below bit `7 * (i + 1)` (41_decoder.md R129). -/
theorem accum_lt {acc : Word} {i : Nat} (p : Payload) (hi : i ≤ 9) (hacc : acc.toNat < 2 ^ (7 * i)) :
    (accum acc p i).toNat < 2 ^ (7 * (i + 1)) := by
  have hgroup : p.toNat <<< (7 * i) < 2 ^ (7 * (i + 1)) := by
    rw [Nat.shiftLeft_eq, Nat.mul_succ, Nat.add_comm, Nat.pow_add]
    exact Nat.mul_lt_mul_of_pos_right p.isLt (Nat.two_pow_pos _)
  have hbelow : acc.toNat < 2 ^ (7 * (i + 1)) :=
    hacc.trans_le (Nat.pow_le_pow_right Nat.two_pos (by omega))
  rw [accum_eq _ _ _ hi, BitVec.toNat_ofNat]
  exact (Nat.mod_le _ _).trans_lt (Nat.or_lt_two_pow hbelow hgroup)

theorem inv_decContinue (h : Inv errW s) (hp : s.phase = .decRun) (b : Byte) :
    Inv errW (decContinue b (byteTaken b s)) where
  phase_used := h.phase_used
  idx_le := by
    simp only [decContinue_idx, byteTaken_idx, idxUp_toNat, Config.idxMax]
    omega
  running_not_done := h.running_not_done
  dec_idx := fun _ => by
    have hidx := h.dec_idx hp
    simp only [decContinue_idx, decContinue_count, byteTaken_idx, byteTaken_count, idxUp_toNat, countUp_toNat,
      Config.idxMax] at hidx ⊢
    omega
  dec_acc := fun _ hle => by
    simp only [decContinue_idx, decContinue_acc, byteTaken_idx, byteTaken_acc, idxUp_toNat] at hle ⊢
    have hi : s.idx.toNat ≤ 9 := by omega
    have hmin : min (s.idx.toNat + 1) 10 = s.idx.toNat + 1 := by omega
    rw [hmin]
    exact accum_lt _ hi (h.dec_acc hp hi)
  enc_x := fun he => by simp [hp] at he
  enc_count := fun he => by simp [hp] at he
  enc_nonzero := fun he => by simp [hp] at he
  result_zero := h.result_zero
  code_zero := h.code_zero
  code_fits := h.code_fits
  inputs_fit := h.inputs_fit

theorem inv_decStep (h : Inv errW s) (hp : s.phase = .decRun) {r : Option SrcResponse}
    (hcode : ∀ e, r = some (.fail e) → e < 2 ^ errW) : Inv errW (decStep r s) := by
  have hpos := Nat.two_pow_pos errW
  obtain ⟨-, hd⟩ | ⟨b, -, -, hd⟩ | ⟨b, -, -, -, hd⟩ | ⟨b, -, -, -, -, hd⟩ | ⟨e, he, hd⟩ := decStep_cases r s <;>
    rw [hd]
  · exact h
  · exact inv_decContinue h hp b
  · exact inv_finish h.idx_le h.inputs_fit (fun _ => rfl) (fun _ => rfl) hpos
  · exact inv_finish h.idx_le h.inputs_fit (fun hst => absurd rfl hst) (fun _ => rfl) hpos
  · exact inv_finish h.idx_le h.inputs_fit (fun _ => rfl) (fun hst => absurd rfl hst) (hcode e he)

/-! ### A byte of a running ENC -/

/-- A value with more groups to come has at most 8 bytes behind it: after 9 only one bit is left (42_encoder.md R155). -/
theorem Inv.count_le_of_more (h : Inv errW s) (hp : s.phase = .encRun) (hx : 128 ≤ s.x.toNat) :
    s.count.toNat ≤ 8 := by
  have hlt : 2 ^ 7 < 2 ^ (64 - 7 * s.count.toNat) := Nat.lt_of_le_of_lt hx (h.enc_x hp)
  have := (Nat.pow_lt_pow_iff_right (by decide : 1 < 2)).1 hlt
  omega

theorem inv_encMore (h : Inv errW s) (hp : s.phase = .encRun) (hx : 128 ≤ s.x.toNat) (b : Byte) :
    Inv errW { byteWritten b s with x := s.x >>> 7 } := by
  have hle := h.count_le_of_more hp hx
  have hcount : (countUp s.count).toNat = s.count.toNat + 1 := by
    rw [countUp_toNat]
    omega
  have hshift : (s.x >>> 7).toNat = s.x.toNat / 2 ^ 7 := by
    rw [BitVec.toNat_ushiftRight, Nat.shiftRight_eq_div_pow]
  exact {
    phase_used := h.phase_used
    idx_le := h.idx_le
    running_not_done := h.running_not_done
    dec_idx := fun hd => by simp [hp] at hd
    dec_acc := fun hd => by simp [hp] at hd
    enc_x := fun _ => by
      have hexp : 64 - 7 * (s.count.toNat + 1) + 7 = 64 - 7 * s.count.toNat := by omega
      simp only [byteWritten_count, hcount, hshift]
      rw [Nat.div_lt_iff_lt_mul (Nat.two_pow_pos 7), ← Nat.pow_add, hexp]
      exact h.enc_x hp
    enc_count := fun _ => by
      simp only [byteWritten_count, hcount]
      omega
    enc_nonzero := fun _ _ => by
      simp only [hshift]
      exact Nat.div_pos hx (Nat.two_pow_pos 7)
    result_zero := h.result_zero
    code_zero := h.code_zero
    code_fits := h.code_fits
    inputs_fit := h.inputs_fit }

theorem inv_encStep (h : Inv errW s) (hp : s.phase = .encRun) {r : Option SnkResponse}
    (hcode : ∀ e, r = some (.fail e) → e < 2 ^ errW) : Inv errW (encStep r s) := by
  obtain ⟨-, he⟩ | ⟨-, hx, he⟩ | ⟨-, -, he⟩ | ⟨e, hr, he⟩ := encStep_cases r s <;> rw [he]
  · exact h
  · exact inv_encMore h hp hx _
  · exact inv_finish h.idx_le h.inputs_fit (fun hst => absurd rfl hst) (fun _ => rfl) (Nat.two_pow_pos errW)
  · exact inv_finish h.idx_le h.inputs_fit (fun _ => rfl) (fun hst => absurd rfl hst) (hcode e hr)

/-! ### A step of a block -/

theorem step_preserves_inv {t : State} (h : Inv errW s) (hs : step s = .next t) : Inv errW t := by
  obtain ⟨-, rfl⟩ | ⟨-, -, rfl⟩ | ⟨-, hp, rfl⟩ | ⟨-, hp, rfl⟩ := step_next_cases hs <;> apply inv_dropSample
  · exact inv_resetRegisters h
  · exact inv_acceptNow h
  · exact inv_decStep h hp fun _ => h.source_code_lt
  · exact inv_encStep h hp fun _ => h.sink_code_lt

theorem Inv.steps (h : Inv errW s) : Steps s := by
  cases hr : (portsNow s).rst with
  | true => exact ⟨_, step_of_rst hr⟩
  | false =>
    cases hp : s.phase with
    | idle => exact ⟨_, step_idle hr hp⟩
    | decRun => exact ⟨_, step_decRun hr hp⟩
    | encRun => exact ⟨_, step_encRun hr hp⟩
    | unused => exact absurd hp h.phase_used

/-! ### A step of a system -/

theorem SystemInv.set {c : OpenParams} {bs : List State} (h : SystemInv c bs) (k : Nat) {t : State}
    (ht : Inv c.errW t) : SystemInv c (bs.set k t) where
  number := by rw [List.length_set, h.number]
  each := fun u hu => by
    obtain hmem | rfl := List.mem_or_eq_of_mem_set hu
    · exact h.each u hmem
    · exact ht

end Sys2Proof.Machine
end

section
/-! The statement of 00_scope.md. -/

namespace Sys2Proof.Machine

/-- Settles O44: a block within the invariant can step and stays within it, and the step changes that block alone. -/
theorem systemInvariantIsKept : Obligations.SystemInvariantIsKept := by
  intro c bs h k hk
  have hlt : k < bs.length := h.number.symm ▸ hk
  have hinv : Inv c.errW bs[k] := h.each _ (List.getElem_mem hlt)
  obtain ⟨t, hstep⟩ := hinv.steps
  exact ⟨bs.set k t, stepBlock_eq_some_iff.2 ⟨bs[k], t, List.getElem?_eq_getElem hlt, hstep, rfl⟩,
    h.set k (step_preserves_inv hinv hstep)⟩

end Sys2Proof.Machine
end

section
/-! What the command port makes of a sample: the word that `exec` gets, stalls, and what `exec` does to the samples
(10_state.md R35, 30_encoding.md R70 to R72). -/

namespace Sys2Proof.Machine

variable {s t : State}

/-! ### The command of a sample -/

theorem cmdWord_op_make (op : BitVec 2) (wsel : WidthCode) : CmdWord.op (CmdWord.make op wsel) = op := by
  revert op wsel
  decide

theorem cmdWord_wsel_make (op : BitVec 2) (wsel : WidthCode) : CmdWord.wsel (CmdWord.make op wsel) = wsel := by
  revert op wsel
  decide

/-- The four operation codes at the port and the command each one presents (R72). -/
theorem command_cases (p : Ports) :
    (p.cmdOp = 0b00#2 ∧ p.command = .len p.cmdWsel p.cmdValue) ∨
    (p.cmdOp = 0b01#2 ∧ p.command = Instr.enc (Width.ofCode p.cmdWsel) p.cmdValue) ∨
    (p.cmdOp = 0b10#2 ∧ p.command = Instr.dec (Width.ofCode p.cmdWsel) p.cmdValue) ∨
    (p.cmdOp = 0b11#2 ∧ p.command = .illegal p.cmdWsel p.cmdValue) := by
  have codes : ∀ op : BitVec 2, op = 0b00#2 ∨ op = 0b01#2 ∨ op = 0b10#2 ∨ op = 0b11#2 := by decide
  obtain h | h | h | h := codes p.cmdOp <;>
    simp [Ports.command, decode, Op.ofCode, cmdWord_op_make, cmdWord_wsel_make, h]

/-! ### A presented command -/

theorem acceptNow_of_cmdValid (hv : (portsNow s).cmdValid = true) :
    acceptNow s = acceptOf (portsNow s).command := by
  simp [acceptNow, hv]

theorem acceptNow_of_not_cmdValid (hv : (portsNow s).cmdValid = false) : acceptNow s s = s := by
  simp [acceptNow, hv]

theorem step_of_cmdValid (hr : (portsNow s).rst = false) (hv : (portsNow s).cmdValid = true) :
    step s = afterSample (exec (portsNow s).command s) := by
  rw [step_of_not_rst hr, acceptNow_of_cmdValid hv, exec_eq_atPort]

theorem exec_unused (i : Instr) (h : s.phase = .unused) : exec i s = .fault .unusedPhase := by
  rw [exec_eq_atPort, atPort_unused h]

/-- What `exec` answers, by the phase. -/
theorem exec_cases (i : Instr) (s : State) :
    (s.phase = .idle ∧ exec i s = .next (acceptOf i s)) ∨
    (s.phase = .decRun ∧ exec i s = .next (decStep (portsNow s).source s)) ∨
    (s.phase = .encRun ∧ exec i s = .next (encStep (portsNow s).sink s)) ∨
    (s.phase = .unused ∧ exec i s = .fault .unusedPhase) := by
  cases hp : s.phase with
  | idle => exact .inl ⟨rfl, by rw [exec_eq_atPort, atPort_idle hp]⟩
  | decRun => exact .inr (.inl ⟨rfl, by rw [exec_eq_atPort, atPort_decRun hp]⟩)
  | encRun => exact .inr (.inr (.inl ⟨rfl, by rw [exec_eq_atPort, atPort_encRun hp]⟩))
  | unused => exact .inr (.inr (.inr ⟨rfl, exec_unused i hp⟩))

theorem exec_next_inputs {i : Instr} (h : exec i s = .next t) : t.inputs = s.inputs := by
  obtain ⟨-, he⟩ | ⟨-, he⟩ | ⟨-, he⟩ | ⟨-, he⟩ := exec_cases i s <;> rw [he] at h <;> cases h
  · exact acceptOf_inputs i s
  · exact decStep_inputs _ s
  · exact encStep_inputs _ s

theorem exec_ne_refused (i : Instr) (s : State) (r : Refusal) : exec i s ≠ .refused r := by
  obtain ⟨-, he⟩ | ⟨-, he⟩ | ⟨-, he⟩ | ⟨-, he⟩ := exec_cases i s <;> rw [he] <;> nofun

theorem dropSample_of_inputs {p : Ports} {ps : List Ports} (h : s.inputs = p :: ps) :
    dropSample s = { s with inputs := ps } := by
  rw [dropSample, h, List.tail_cons]

end Sys2Proof.Machine
end

section
/-! Where the outcome registers and `done` are written (10_state.md R27 to R30). -/

namespace Sys2Proof.Machine

/-- `t` has the outcome registers of `s`. -/
structure SameOutcome (s t : State) : Prop where
  status : t.status = s.status
  result : t.result = s.result
  ioCode : t.ioCode = s.ioCode

/-- `t` ends a command: what `finish` leaves (60_exceptions.md R181). -/
structure Completed (t : State) : Prop where
  done : t.done = true
  phase : t.phase = .idle

theorem SameOutcome.refl (s : State) : SameOutcome s s := ⟨rfl, rfl, rfl⟩

theorem completed_finish (st : Status) (r : Word) (e : IoCode) (s : State) : Completed (finish st r e s) := ⟨rfl, rfl⟩

theorem sameOutcome_dropSample {s t : State} (h : SameOutcome s t) : SameOutcome s (dropSample t) :=
  ⟨h.status, h.result, h.ioCode⟩

theorem completed_dropSample {t : State} (h : Completed t) : Completed (dropSample t) := ⟨h.done, h.phase⟩

/-- A running DEC keeps the outcome and `done` until it completes. -/
theorem decStep_sameOutcome_or_completed (r : Option SrcResponse) (s : State) :
    (SameOutcome s (decStep r s) ∧ (decStep r s).done = s.done) ∨ Completed (decStep r s) := by
  obtain ⟨-, h⟩ | ⟨b, -, -, h⟩ | ⟨b, -, -, -, h⟩ | ⟨b, -, -, -, -, h⟩ | ⟨e, -, h⟩ := decStep_cases r s <;> rw [h]
  · exact .inl ⟨.refl s, rfl⟩
  · exact .inl ⟨⟨rfl, rfl, rfl⟩, rfl⟩
  all_goals exact .inr (completed_finish ..)

/-- A running ENC keeps the outcome and `done` until it completes. -/
theorem encStep_sameOutcome_or_completed (r : Option SnkResponse) (s : State) :
    (SameOutcome s (encStep r s) ∧ (encStep r s).done = s.done) ∨ Completed (encStep r s) := by
  obtain ⟨-, h⟩ | ⟨-, -, h⟩ | ⟨-, -, h⟩ | ⟨e, -, h⟩ := encStep_cases r s <;> rw [h]
  · exact .inl ⟨.refl s, rfl⟩
  · exact .inl ⟨⟨rfl, rfl, rfl⟩, rfl⟩
  all_goals exact .inr (completed_finish ..)

/-- LEN and the reserved words complete when they are accepted; ENC and DEC keep the outcome and start to run. -/
theorem acceptOf_command_outcome (p : Ports) (s : State) :
    Completed (acceptOf p.command s) ∨
    (SameOutcome s (acceptOf p.command s) ∧
      (p.cmdOp = 0b01#2 ∧ (acceptOf p.command s).phase = .encRun ∨
        p.cmdOp = 0b10#2 ∧ (acceptOf p.command s).phase = .decRun)) := by
  obtain ⟨-, hc⟩ | ⟨hop, hc⟩ | ⟨hop, hc⟩ | ⟨-, hc⟩ := command_cases p <;> rw [hc]
  · exact .inl (completed_finish ..)
  · rw [acceptOf_enc]
    exact .inr ⟨⟨rfl, rfl, rfl⟩, .inl ⟨hop, rfl⟩⟩
  · rw [acceptOf_dec]
    exact .inr ⟨⟨rfl, rfl, rfl⟩, .inr ⟨hop, rfl⟩⟩
  · exact .inl (completed_finish ..)

/-- A step without reset completes a command, keeps the outcome and `done`, or accepts an ENC or DEC. -/
theorem step_outcome_cases {s t : State} (hr : (portsNow s).rst = false) (hs : step s = .next t) :
    Completed t ∨ (SameOutcome s t ∧ t.done = s.done) ∨
    (SameOutcome s t ∧ s.phase = .idle ∧ (portsNow s).cmdValid = true ∧
      ((portsNow s).cmdOp = 0b01#2 ∧ t.phase = .encRun ∨ (portsNow s).cmdOp = 0b10#2 ∧ t.phase = .decRun)) := by
  obtain ⟨hr', -⟩ | ⟨-, hp, rfl⟩ | ⟨-, -, rfl⟩ | ⟨-, -, rfl⟩ := step_next_cases hs
  · simp [hr] at hr'
  · cases hv : (portsNow s).cmdValid with
    | false =>
      rw [acceptNow_of_not_cmdValid hv]
      exact .inr (.inl ⟨sameOutcome_dropSample (.refl s), rfl⟩)
    | true =>
      rw [acceptNow_of_cmdValid hv]
      obtain hdone | ⟨hsame, hrun⟩ := acceptOf_command_outcome (portsNow s) s
      · exact .inl (completed_dropSample hdone)
      · exact .inr (.inr ⟨sameOutcome_dropSample hsame, hp, rfl, hrun⟩)
  · obtain ⟨hsame, hd⟩ | hdone := decStep_sameOutcome_or_completed (portsNow s).source s
    · exact .inr (.inl ⟨sameOutcome_dropSample hsame, hd⟩)
    · exact .inl (completed_dropSample hdone)
  · obtain ⟨hsame, hd⟩ | hdone := encStep_sameOutcome_or_completed (portsNow s).sink s
    · exact .inr (.inl ⟨sameOutcome_dropSample hsame, hd⟩)
    · exact .inl (completed_dropSample hdone)

end Sys2Proof.Machine
end

section
/-! Every operation keeps agreement, and an acceptance makes it (10_state.md R32, 70_reset_and_hazards.md R205). -/

namespace Sys2Proof.Machine

variable {s t : State}

theorem portsNow_congr (h : s.inputs = t.inputs) : portsNow s = portsNow t := by
  simp only [portsNow, h]

theorem agree_dropSample (h : Agree s t) : Agree (dropSample s) (dropSample t) :=
  { h with inputs := congrArg List.tail h.inputs }

theorem agree_resetRegisters (h : s.inputs = t.inputs) : Agree (resetRegisters s) (resetRegisters t) where
  phase := rfl
  count := rfl
  done := rfl
  inputs := h
  dec := nofun
  enc := nofun
  outcome := nofun

/-- Commands that end alike agree if they moved equally many bytes: an idle block's other registers are not read. -/
theorem agree_finish (st : Status) (r : Word) (e : IoCode) (hc : s.count = t.count) (hi : s.inputs = t.inputs) :
    Agree (finish st r e s) (finish st r e t) where
  phase := rfl
  count := hc
  done := rfl
  inputs := hi
  dec := nofun
  enc := nofun
  outcome := fun _ => ⟨rfl, rfl, rfl⟩

/-! ### Acceptance reads no register -/

theorem agree_encAccept (w : WidthCode) (v : Word) (h : s.inputs = t.inputs) :
    Agree (encAccept w v s) (encAccept w v t) where
  phase := rfl
  count := rfl
  done := rfl
  inputs := h
  dec := nofun
  enc := fun _ => rfl
  outcome := nofun

theorem agree_decAccept (w : WidthCode) (h : s.inputs = t.inputs) : Agree (decAccept w s) (decAccept w t) where
  phase := rfl
  count := rfl
  done := rfl
  inputs := h
  dec := fun _ => ⟨rfl, rfl, rfl⟩
  enc := nofun
  outcome := nofun

theorem agree_acceptOf (i : Instr) (h : s.inputs = t.inputs) : Agree (acceptOf i s) (acceptOf i t) := by
  cases i with
  | len | illegal => exact agree_finish _ _ _ rfl h
  | encU8 | encU16 | encU32 | encU64 => exact agree_encAccept _ _ h
  | decU8 | decU16 | decU32 | decU64 => exact agree_decAccept _ h

theorem agree_acceptNow (h : Agree s t) : Agree (acceptNow s s) (acceptNow t t) := by
  have hports : portsNow t = portsNow s := (portsNow_congr h.inputs).symm
  cases hv : (portsNow s).cmdValid with
  | false =>
    rw [acceptNow_of_not_cmdValid hv, acceptNow_of_not_cmdValid (hports ▸ hv)]
    exact h
  | true =>
    rw [acceptNow_of_cmdValid hv, acceptNow_of_cmdValid (hports ▸ hv), hports]
    exact agree_acceptOf _ h.inputs

/-! ### A running unit reads only what agrees -/

theorem agree_byteTaken (h : Agree s t) (b : Byte) : Agree (byteTaken b s) (byteTaken b t) :=
  { h with count := congrArg countUp h.count }

theorem agree_byteWritten (h : Agree s t) (b : Byte) : Agree (byteWritten b s) (byteWritten b t) :=
  { h with count := congrArg countUp h.count }

theorem agree_decContinue (h : Agree s t) (hp : s.phase = .decRun) (b : Byte) :
    Agree (decContinue b s) (decContinue b t) := by
  obtain ⟨hw, ha, hi⟩ := h.dec hp
  exact { h with
    dec := fun _ => by simp [hw, ha, hi]
    enc := fun he => by simp [hp] at he }

theorem agree_decTerminal (h : Agree s t) (hp : s.phase = .decRun) (b : Byte) :
    Agree (decTerminal b s) (decTerminal b t) := by
  obtain ⟨hw, ha, hi⟩ := h.dec hp
  simp only [decTerminal, hw, ha, hi]
  split_ifs <;> exact agree_finish _ _ _ h.count h.inputs

theorem agree_decStep (h : Agree s t) (hp : s.phase = .decRun) (r : Option SrcResponse) :
    Agree (decStep r s) (decStep r t) := by
  rcases r with _ | b | e
  · exact h
  · simp only [decStep, decByte]
    split_ifs
    · exact agree_decContinue (agree_byteTaken h b) hp b
    · exact agree_decTerminal (agree_byteTaken h b) hp b
  · exact agree_finish _ _ _ h.count h.inputs

theorem agree_encAcked (h : Agree s t) (hp : s.phase = .encRun) : Agree (encAcked s) (encAcked t) := by
  have hx := h.enc hp
  simp only [encAcked, hx]
  split_ifs
  · exact { h with enc := fun _ => rfl }
  · rw [h.count]
    exact agree_finish _ _ _ h.count h.inputs

theorem agree_encStep (h : Agree s t) (hp : s.phase = .encRun) (r : Option SnkResponse) :
    Agree (encStep r s) (encStep r t) := by
  rcases r with _ | _ | e
  · exact h
  · simp only [encStep, ← h.enc hp]
    exact agree_encAcked (agree_byteWritten h _) hp
  · exact agree_finish _ _ _ h.count h.inputs

/-! ### A step -/

theorem agree_step (h : Agree s t) (hu : s.phase ≠ .unused) :
    ∃ s' t', step s = .next s' ∧ step t = .next t' ∧ Agree s' t' := by
  have hports : portsNow t = portsNow s := (portsNow_congr h.inputs).symm
  have hphase : t.phase = s.phase := h.phase.symm
  cases hr : (portsNow s).rst with
  | true => exact ⟨_, _, step_of_rst hr, step_of_rst (hports ▸ hr), agree_dropSample (agree_resetRegisters h.inputs)⟩
  | false =>
    have hr' : (portsNow t).rst = false := hports ▸ hr
    cases hp : s.phase with
    | idle => exact ⟨_, _, step_idle hr hp, step_idle hr' (hphase.trans hp), agree_dropSample (agree_acceptNow h)⟩
    | decRun =>
      refine ⟨_, _, step_decRun hr hp, step_decRun hr' (hphase.trans hp), ?_⟩
      rw [hports]
      exact agree_dropSample (agree_decStep h hp _)
    | encRun =>
      refine ⟨_, _, step_encRun hr hp, step_encRun hr' (hphase.trans hp), ?_⟩
      rw [hports]
      exact agree_dropSample (agree_encStep h hp _)
    | unused => exact absurd hp hu

/-- A presented command makes two idle blocks agree, whatever their registers hold. -/
theorem agree_of_accepting (hs : s.phase = .idle) (ht : t.phase = .idle) (hi : s.inputs = t.inputs)
    (hr : (portsNow s).rst = false) (hv : (portsNow s).cmdValid = true) :
    ∃ s' t', step s = .next s' ∧ step t = .next t' ∧ Agree s' t' := by
  have hports : portsNow t = portsNow s := (portsNow_congr hi).symm
  refine ⟨_, _, step_idle hr hs, step_idle (hports ▸ hr) ht, ?_⟩
  rw [acceptNow_of_cmdValid hv, acceptNow_of_cmdValid (hports ▸ hv), hports]
  exact agree_dropSample (agree_acceptOf _ hi)

end Sys2Proof.Machine
end

section
/-! The statements of 10_state.md. -/

namespace Sys2Proof.Machine

/-- Settles O36: every case of a step is an operation that keeps the invariant. -/
theorem stepKeepsTheInvariant : Obligations.StepKeepsTheInvariant :=
  fun _ _ _ h hs => step_preserves_inv h hs

/-- Settles O38: a step without reset completes a command, keeps the outcome and `done`, or accepts an ENC or DEC. -/
theorem outcomeWrittenOnlyAtCompletion : Obligations.OutcomeWrittenOnlyAtCompletion := by
  intro s t hr hs
  obtain ⟨hd, hi⟩ | ⟨⟨hst, hres, hio⟩, hd⟩ | ⟨⟨hst, hres, hio⟩, hacc⟩ := step_outcome_cases hr hs
  · exact ⟨.inr ⟨hd, hi⟩, fun _ hnot => by simp [hd] at hnot⟩
  · exact ⟨.inl ⟨hst, hres, hio⟩, fun hdone hnot => by simp [hd, hdone] at hnot⟩
  · exact ⟨.inl ⟨hst, hres, hio⟩, fun _ _ => hacc⟩

/-- Settles O42: an acceptance reads no register, and a running unit reads only registers that agree. -/
theorem commandsAreStatelessBetweenEachOther : Obligations.CommandsAreStatelessBetweenEachOther :=
  ⟨fun _ _ hs ht hi hr hv => agree_of_accepting hs ht hi hr hv, fun _ _ h hu => agree_step h hu⟩

/-- Settles O4: without reset, a presented command's step is its `exec` and the passing of the sample. -/
theorem stepRunsThePresentedCommand : Obligations.StepRunsThePresentedCommand := by
  intro s p ps hin hr hv
  have hp : portsNow s = p := portsNow_of_inputs hin
  have hstep : step s = afterSample (exec p.command s) := hp ▸ step_of_cmdValid (hp ▸ hr) (hp ▸ hv)
  refine ⟨fun t ht => ?_, fun f hf => ?_, exec_ne_refused p.command s⟩
  · change exec p.command s = .next t at ht
    have ht_inputs : t.inputs = p :: ps := (exec_next_inputs ht).trans hin
    rw [hstep, ht, ← dropSample_of_inputs ht_inputs]
    exact ⟨ht_inputs, rfl⟩
  · change exec p.command s = .fault f at hf
    rw [hstep, hf]
    rfl

/-- Settles O7: in each used phase the event that does not come is the only thing the step would act on. -/
theorem stallLeavesEveryRegister : Obligations.StallLeavesEveryRegister := by
  intro s hu hr hidle hdec henc
  change step s = .next (dropSample s)
  cases hp : s.phase with
  | idle => rw [step_idle hr hp, acceptNow_of_not_cmdValid (hidle hp)]
  | decRun => rw [step_decRun hr hp, (source_eq_none_iff _).2 (hdec hp)]; rfl
  | encRun => rw [step_encRun hr hp, (sink_eq_none_iff _).2 (henc hp)]; rfl
  | unused => exact absurd hp hu

/-- Settles O9: the port's step has no meaning in phase 0b11 but the fault. -/
theorem unusedPhaseFaults : Obligations.UnusedPhaseFaults :=
  fun _ h => ⟨fun hr => step_unused hr h, fun i => exec_unused i h⟩

/-- Settles O35: the reset values (R34) meet each clause; no sample is listed (log entry 1). -/
theorem invariantHoldsAtReset : Obligations.InvariantHoldsAtReset := fun errW => {
  phase_used := nofun
  idx_le := Nat.zero_le _
  running_not_done := fun _ => rfl
  dec_idx := nofun
  dec_acc := nofun
  enc_x := nofun
  enc_count := nofun
  enc_nonzero := nofun
  result_zero := fun _ => rfl
  code_zero := fun _ => rfl
  code_fits := Nat.two_pow_pos errW
  inputs_fit := nofun }

end Sys2Proof.Machine
end

section
/-! Which bytes each operation moves (20_memory.md R50, R57 to R59), and the command that a presented word is at the
port (20_memory.md R64, 30_encoding.md R70, R71). -/

namespace Sys2Proof.Machine

/-! ### The bytes a response moves -/

/-- The bytes that a response of the source hands over (R58): only `Byte(b)` hands over one. -/
def bytesHandedOver : Option SrcResponse → List Byte
  | some (.byte b) => [b]
  | some (.fail _) => []
  | none => []

/-- The bytes that a response of the sink takes when `b` is offered (R59): only `Ack` takes it. -/
def bytesAcknowledged (b : Byte) : Option SnkResponse → List Byte
  | some .ack => [b]
  | some (.fail _) => []
  | none => []

/-! ### An acceptance moves no byte -/

@[simp] theorem acceptOf_consumed (i : Instr) (s : State) : (acceptOf i s).consumed = s.consumed := by
  cases i <;> rfl

@[simp] theorem acceptOf_written (i : Instr) (s : State) : (acceptOf i s).written = s.written := by
  cases i <;> rfl

@[simp] theorem acceptNow_consumed (s t : State) : (acceptNow s t).consumed = t.consumed := by
  unfold acceptNow
  split
  · exact acceptOf_consumed _ t
  · rfl

@[simp] theorem acceptNow_written (s t : State) : (acceptNow s t).written = t.written := by
  unfold acceptNow
  split
  · exact acceptOf_written _ t
  · rfl

/-! ### A running unit moves bytes on its own channel only -/

@[simp] theorem decStep_consumed (r : Option SrcResponse) (s : State) :
    (decStep r s).consumed = s.consumed ++ bytesHandedOver r := by
  obtain ⟨rfl, h⟩ | ⟨b, rfl, -, h⟩ | ⟨b, rfl, -, -, h⟩ | ⟨b, rfl, -, -, -, h⟩ | ⟨e, rfl, h⟩ := decStep_cases r s <;>
    simp [h, bytesHandedOver]

@[simp] theorem decStep_written (r : Option SrcResponse) (s : State) : (decStep r s).written = s.written := by
  obtain ⟨-, h⟩ | ⟨b, -, -, h⟩ | ⟨b, -, -, -, h⟩ | ⟨b, -, -, -, -, h⟩ | ⟨e, -, h⟩ := decStep_cases r s <;> simp [h]

@[simp] theorem encStep_consumed (r : Option SnkResponse) (s : State) : (encStep r s).consumed = s.consumed := by
  obtain ⟨-, h⟩ | ⟨-, -, h⟩ | ⟨-, -, h⟩ | ⟨e, -, h⟩ := encStep_cases r s <;> simp [h]

@[simp] theorem encStep_written (r : Option SnkResponse) (s : State) :
    (encStep r s).written = s.written ++ bytesAcknowledged (outData s) r := by
  obtain ⟨rfl, h⟩ | ⟨rfl, -, h⟩ | ⟨rfl, -, h⟩ | ⟨e, rfl, h⟩ := encStep_cases r s <;>
    simp [h, bytesAcknowledged, outData]

/-! ### A presented word -/

theorem cmdWord_make_op_wsel (cw : CmdWord) : CmdWord.make (CmdWord.op cw) (CmdWord.wsel cw) = cw := by
  revert cw
  decide

theorem command_present (cw : CmdWord) (v : Word) : (Ports.present cw v).command = decode cw v := by
  simp [Ports.command, Ports.present, cmdWord_make_op_wsel]

theorem decode_of_decodeTableWord {nbits w : Nat} {i : Instr} (h : decodeTableWord nbits w = some i) :
    decode (BitVec.ofNat 4 (w % 2 ^ nbits)) 0#64 = i := by
  rw [decodeTableWord, decodeNumbers, if_neg (Nat.not_le.2 (Nat.two_pow_pos 64))] at h
  split_ifs at h
  · cases h
  · exact Option.some.inj h

end Sys2Proof.Machine
end

section
/-! The statements of 20_memory.md. -/

namespace Sys2Proof.Machine

/-- Settles O40: reset and acceptance move no byte, and a running unit moves what its channel's response says. -/
theorem bytesMoveOneAtATime : Obligations.BytesMoveOneAtATime := by
  intro s t h
  obtain ⟨hr, rfl⟩ | ⟨hr, hp, rfl⟩ | ⟨hr, hp, rfl⟩ | ⟨hr, hp, rfl⟩ := step_next_cases h
  · rw [hr]
    cases s.phase <;> exact ⟨(List.append_nil _).symm, (List.append_nil _).symm⟩
  · simp [hp]
  · rw [hp, hr]
    constructor
    · rw [dropSample_consumed, decStep_consumed]
      rcases (portsNow s).source with _ | _ | _ <;> rfl
    · simp
  · rw [hp, hr]
    constructor
    · simp
    · rw [dropSample_written, encStep_written]
      rcases (portsNow s).sink with _ | _ | _ <;> rfl

/-- Settles O5: the presented sample carries the word's command to a block in IDLE, which accepts it. -/
theorem presentedWordRunsAtTheNextStep : Obligations.PresentedWordRunsAtTheNextStep := by
  intro s nbits w i hi
  have hcommand : (Ports.present (BitVec.ofNat 4 (w % 2 ^ nbits)) 0#64).command = i :=
    (command_present _ _).trans (decode_of_decodeTableWord hi)
  have hexec : exec i (s.withFetchWord nbits w) = .next (acceptOf i (s.withFetchWord nbits w)) := by
    rw [exec_eq_atPort, atPort_idle rfl]
  obtain ⟨hnext, -, -⟩ := stepRunsThePresentedCommand (s.withFetchWord nbits w) _ _ rfl rfl rfl
  exact ⟨_, hexec, (hnext _ (hcommand ▸ hexec)).2⟩

end Sys2Proof.Machine
end

section
/-! Commands and command words are two ways of writing the same thing (30_encoding.md R71 to R73, R80). -/

namespace Sys2Proof

open Machine

/-! ### What the words of each operation decode to -/

theorem op_ofCode_code (o : Op) : Op.ofCode o.code = o := by cases o <;> rfl

theorem decode_len (wsel : WidthCode) (v : Word) : decode (CmdWord.make Op.len.code wsel) v = .len wsel v := by
  simp [decode, cmdWord_op_make, cmdWord_wsel_make, op_ofCode_code]

theorem decode_enc (w : Width) (v : Word) : decode (CmdWord.make Op.enc.code w.code) v = Instr.enc w v := by
  simp [decode, cmdWord_op_make, cmdWord_wsel_make, op_ofCode_code]

theorem decode_dec (w : Width) (v : Word) : decode (CmdWord.make Op.dec.code w.code) v = Instr.dec w v := by
  simp [decode, cmdWord_op_make, cmdWord_wsel_make, op_ofCode_code]

theorem decode_reserved (wsel : WidthCode) (v : Word) :
    decode (CmdWord.make Op.reserved.code wsel) v = .illegal wsel v := by
  simp [decode, cmdWord_op_make, cmdWord_wsel_make, op_ofCode_code]

theorem encode_enc (w : Width) (v : Word) : encode (Instr.enc w v) = (CmdWord.make Op.enc.code w.code, v) := by
  cases w <;> rfl

theorem encode_dec (w : Width) (v : Word) : encode (Instr.dec w v) = (CmdWord.make Op.dec.code w.code, v) := by
  cases w <;> rfl

/-! ### The two directions -/

theorem op_code_ofCode (c : BitVec 2) : (Op.ofCode c).code = c := by
  revert c
  decide

theorem width_code_ofCode (c : WidthCode) : (Width.ofCode c).code = c := by
  revert c
  decide

/-- Every command word is one of an operation; for ENC and DEC its low bits are the code of a width (R72, R73). -/
theorem cmdWord_cases (cw : CmdWord) :
    (∃ wsel, cw = CmdWord.make Op.len.code wsel) ∨ (∃ w : Width, cw = CmdWord.make Op.enc.code w.code) ∨
    (∃ w : Width, cw = CmdWord.make Op.dec.code w.code) ∨ (∃ wsel, cw = CmdWord.make Op.reserved.code wsel) := by
  have hcw : cw = CmdWord.make (Op.ofCode (CmdWord.op cw)).code (Width.ofCode (CmdWord.wsel cw)).code := by
    rw [op_code_ofCode, width_code_ofCode, cmdWord_make_op_wsel]
  generalize Width.ofCode (CmdWord.wsel cw) = w at hcw
  cases ho : Op.ofCode (CmdWord.op cw) <;> rw [ho] at hcw
  · exact .inl ⟨w.code, hcw⟩
  · exact .inr (.inl ⟨w, hcw⟩)
  · exact .inr (.inr (.inl ⟨w, hcw⟩))
  · exact .inr (.inr (.inr ⟨w.code, hcw⟩))

/-- Every command is one of an operation; for ENC and DEC it is that of a width (R80). -/
theorem instr_cases (i : Instr) :
    (∃ wsel v, i = .len wsel v) ∨ (∃ w v, i = Instr.enc w v) ∨ (∃ w v, i = Instr.dec w v) ∨
    (∃ wsel v, i = .illegal wsel v) := by
  obtain ⟨wsel, v, h, -⟩ | ⟨w, v, h, -⟩ | ⟨w, v, h, -⟩ | ⟨wsel, v, h, -⟩ := acceptOf_cases i State.reset
  · exact .inl ⟨wsel, v, h⟩
  · exact .inr (.inl ⟨w, v, h⟩)
  · exact .inr (.inr (.inl ⟨w, v, h⟩))
  · exact .inr (.inr (.inr ⟨wsel, v, h⟩))

theorem decode_encode (i : Instr) : decode (encode i).1 (encode i).2 = i := by
  obtain ⟨wsel, v, rfl⟩ | ⟨w, v, rfl⟩ | ⟨w, v, rfl⟩ | ⟨wsel, v, rfl⟩ := instr_cases i
  · exact decode_len wsel v
  · rw [encode_enc, decode_enc]
  · rw [encode_dec, decode_dec]
  · exact decode_reserved wsel v

theorem encode_decode (cw : CmdWord) (v : Word) : encode (decode cw v) = (cw, v) := by
  obtain ⟨wsel, rfl⟩ | ⟨w, rfl⟩ | ⟨w, rfl⟩ | ⟨wsel, rfl⟩ := cmdWord_cases cw
  · rw [decode_len]; rfl
  · rw [decode_enc, encode_enc]
  · rw [decode_dec, encode_dec]
  · rw [decode_reserved]; rfl

theorem encode_injective : Function.Injective encode := fun i j h => by
  rw [← decode_encode i, h, decode_encode j]

/-! ### The opcode table -/

theorem tableRow_of_instr (i : Instr) : Laws.TableRow.Statement i := by
  cases i with
  | len wsel v => exact Laws.TableRow.len wsel v
  | encU8 v => exact Laws.TableRow.encU8 v
  | encU16 v => exact Laws.TableRow.encU16 v
  | encU32 v => exact Laws.TableRow.encU32 v
  | encU64 v => exact Laws.TableRow.encU64 v
  | decU8 v => exact Laws.TableRow.decU8 v
  | decU16 v => exact Laws.TableRow.decU16 v
  | decU32 v => exact Laws.TableRow.decU32 v
  | decU64 v => exact Laws.TableRow.decU64 v
  | illegal wsel v => exact Laws.TableRow.illegal wsel v

theorem covering_rows_length (cw : CmdWord) : (opcodeTable.filter (fun r => r.covers cw)).length = 1 := by
  revert cw
  decide

end Sys2Proof
end

section
/-! While a command runs, a step looks at the reset line and at the responses of the channels only (30_encoding.md R70,
70_reset_and_hazards.md R203). -/

namespace Sys2Proof.Machine

theorem step_facing_congr_of_busy {s : State} {p q : Ports} (ps : List Ports) (hbusy : s.phase ≠ .idle)
    (hrst : p.rst = q.rst) (hsource : p.source = q.source) (hsink : p.sink = q.sink) :
    step (s.facing (p :: ps)) = step (s.facing (q :: ps)) := by
  cases hq : q.rst with
  | true =>
    have hp : p.rst = true := hrst.trans hq
    rw [step_of_rst (s := s.facing (p :: ps)) hp, step_of_rst (s := s.facing (q :: ps)) hq]
    rfl
  | false =>
    have hp : p.rst = false := hrst.trans hq
    cases hphase : s.phase with
    | idle => exact absurd hphase hbusy
    | decRun => rw [step_facing_decRun hphase hp, step_facing_decRun hphase hq, hsource]
    | encRun => rw [step_facing_encRun hphase hp, step_facing_encRun hphase hq, hsink]
    | unused => rw [step_unused (s := s.facing (p :: ps)) hp hphase, step_unused (s := s.facing (q :: ps)) hq hphase]

theorem Inv.exec_next {errW : Nat} {s : State} (h : Inv errW s) (i : Instr) : ∃ t, exec i s = .next t := by
  obtain ⟨-, he⟩ | ⟨-, he⟩ | ⟨-, he⟩ | ⟨hp, -⟩ := exec_cases i s
  · exact ⟨_, he⟩
  · exact ⟨_, he⟩
  · exact ⟨_, he⟩
  · exact absurd hp h.phase_used

end Sys2Proof.Machine
end

section
/-! The assembler is the encoder of the command that a line names (30_encoding.md R82, R83). -/

namespace Sys2Proof.Machine

/-- The command that a line stands for (R82); `assemble_of_wf` ties it to what the assembler writes. -/
def namedCommand (native : NativeWidth) : AsmLine → Instr
  | .len n => .len 0#2 (BitVec.ofNat 64 n)
  | .enc w n => Instr.enc w (BitVec.ofNat 64 n)
  | .dec w => Instr.dec w 0#64
  | .encUsize n => Instr.enc native.width (BitVec.ofNat 64 n)
  | .decUsize => Instr.dec native.width 0#64
  | .cw n m => decode (BitVec.ofNat 4 n) (BitVec.ofNat 64 m)

theorem assemble_of_wf {native : NativeWidth} {l : AsmLine} (h : l.wf native = true) :
    assemble native l = .ok (encode (namedCommand native l)) := by
  cases l with
  | len n => exact if_pos (decide_eq_true_iff.1 h)
  | enc w n => simpa [AsmLine.wf, assemble, namedCommand, encode_enc] using h
  | dec w => simp [assemble, namedCommand, encode_dec]
  | encUsize n => simpa [AsmLine.wf, assemble, namedCommand, encode_enc] using h
  | decUsize => simp [assemble, namedCommand, encode_dec]
  | cw n m =>
    obtain ⟨hn, hm⟩ : n < 16 ∧ m < 2 ^ 64 := by simpa [AsmLine.wf] using h
    rw [namedCommand, encode_decode, assemble, if_neg (Nat.not_le.2 hn), if_pos hm]

/-- A range check that accepts has found the number in range. -/
theorem of_ite_eq_ok {p : Prop} [Decidable p] {r r' : CmdWord × Word} {e : AsmReject}
    (h : (if p then .ok r else .error e : Except AsmReject (CmdWord × Word)) = .ok r') : p := by
  by_contra hp
  rw [if_neg hp] at h
  cases h

theorem wf_of_assemble {native : NativeWidth} {l : AsmLine} {r : CmdWord × Word} (h : assemble native l = .ok r) :
    l.wf native = true := by
  cases l with
  | len n => exact decide_eq_true (of_ite_eq_ok h)
  | enc w n => exact decide_eq_true (of_ite_eq_ok h)
  | dec w => rfl
  | encUsize n => exact decide_eq_true (of_ite_eq_ok h)
  | decUsize => rfl
  | cw n m =>
    rw [assemble] at h
    split_ifs at h with hn hm
    simpa [AsmLine.wf] using ⟨Nat.not_le.1 hn, hm⟩

/-- What the assembler writes, and when (R83). -/
theorem assemble_eq_ok_iff {native : NativeWidth} {l : AsmLine} {r : CmdWord × Word} :
    assemble native l = .ok r ↔ l.wf native = true ∧ r = encode (namedCommand native l) := by
  constructor
  · intro h
    have hwf := wf_of_assemble h
    rw [assemble_of_wf hwf] at h
    exact ⟨hwf, (Except.ok.inj h).symm⟩
  · rintro ⟨hwf, rfl⟩
    exact assemble_of_wf hwf

/-! ### Operands in range -/

theorem width_bits_le (w : Width) : w.bits ≤ 64 := by cases w <;> decide

theorem lt_two_pow_64_of_lt_bits {w : Width} {n : Nat} (h : n < 2 ^ w.bits) : n < 2 ^ 64 :=
  h.trans_le (Nat.pow_le_pow_right Nat.two_pos (width_bits_le w))

/-- A number in range is the value of the operand lines. -/
theorem toNat_ofNat_of_lt_bits {w : Width} {n : Nat} (h : n < 2 ^ w.bits) : (BitVec.ofNat 64 n).toNat = n :=
  Nat.mod_eq_of_lt (lt_two_pow_64_of_lt_bits h)

/-! ### Commands with a mnemonic form -/

theorem hasMnemonicForm_len (wsel : WidthCode) (v : Word) :
    (Instr.len wsel v).hasMnemonicForm = true ↔ wsel = 0#2 := by
  simp [Instr.hasMnemonicForm]

theorem hasMnemonicForm_enc (w : Width) (v : Word) :
    (Instr.enc w v).hasMnemonicForm = true ↔ v.toNat < 2 ^ w.bits := by
  cases w with
  | w8 => exact decide_eq_true_iff
  | w16 => exact decide_eq_true_iff
  | w32 => exact decide_eq_true_iff
  | w64 => exact iff_of_true rfl v.isLt

theorem hasMnemonicForm_dec (w : Width) (v : Word) : (Instr.dec w v).hasMnemonicForm = true ↔ v = 0#64 := by
  cases w <;> exact beq_iff_eq

/-- The command of a mnemonic line in range has a mnemonic form. -/
theorem hasMnemonicForm_namedCommand {native : NativeWidth} {l : AsmLine} (hraw : ∀ n v, l ≠ .cw n v)
    (hwf : l.wf native = true) : (namedCommand native l).hasMnemonicForm = true := by
  cases l with
  | len n => rfl
  | enc w n =>
    have hn : n < 2 ^ w.bits := decide_eq_true_iff.1 hwf
    exact (hasMnemonicForm_enc _ _).2 (by rwa [toNat_ofNat_of_lt_bits hn])
  | dec w => exact (hasMnemonicForm_dec _ _).2 rfl
  | encUsize n =>
    have hn : n < 2 ^ native.width.bits := decide_eq_true_iff.1 hwf
    exact (hasMnemonicForm_enc _ _).2 (by rwa [toNat_ofNat_of_lt_bits hn])
  | decUsize => exact (hasMnemonicForm_dec _ _).2 rfl
  | cw n m => exact absurd rfl (hraw n m)

/-- A command with a mnemonic form is the command of a mnemonic line in range, on every platform. -/
theorem exists_line_of_hasMnemonicForm {i : Instr} (native : NativeWidth) (h : i.hasMnemonicForm = true) :
    ∃ l : AsmLine, (∀ n v, l ≠ .cw n v) ∧ l.wf native = true ∧ namedCommand native l = i := by
  obtain ⟨wsel, v, rfl⟩ | ⟨w, v, rfl⟩ | ⟨w, v, rfl⟩ | ⟨wsel, v, rfl⟩ := instr_cases i
  · rw [(hasMnemonicForm_len _ _).1 h]
    exact ⟨.len v.toNat, nofun, decide_eq_true v.isLt, by simp [namedCommand]⟩
  · exact ⟨.enc w v.toNat, nofun, decide_eq_true ((hasMnemonicForm_enc _ _).1 h), by simp [namedCommand]⟩
  · rw [(hasMnemonicForm_dec _ _).1 h]
    exact ⟨.dec w, nofun, rfl, rfl⟩
  · cases h

end Sys2Proof.Machine
end

section
/-! LenCalc and the canonical encoding as recursions on the value's groups of 7 bits, and the value a varint carries
(30_encoding.md R76, R78, 40_length.md R101, 42_encoder.md R151, R154). -/

namespace Sys2Proof.Machine

/-! ### The groups of a value -/

theorem toNat_ushiftRight_seven (v : Word) : (v >>> 7).toNat = v.toNat / 128 := by
  rw [BitVec.toNat_ushiftRight, Nat.shiftRight_eq_div_pow]

/-- Induction on the groups of a value: one group is left, or the lowest of several is taken off. -/
theorem groups_induction {P : Word → Prop} (last : ∀ v : Word, v.toNat < 128 → P v)
    (more : ∀ v : Word, 128 ≤ v.toNat → P (v >>> 7) → P v) (v : Word) : P v := by
  by_cases h : v.toNat < 128
  · exact last v h
  · exact more v (Nat.not_lt.1 h) (groups_induction last more (v >>> 7))
termination_by v.toNat
decreasing_by
  rw [toNat_ushiftRight_seven]
  omega

/-! ### LenCalc -/

theorem lenLoop_succ_shifts (fuel : Nat) (r : Word) (shifts : Nat) :
    lenLoop fuel r (shifts + 1) = lenLoop fuel r shifts + 1 := by
  induction fuel generalizing r shifts with
  | zero => rfl
  | succ fuel ih =>
    simp only [lenLoop, ih]
    split <;> rfl

/-- A pass more changes nothing once the passes are enough for the value (R101). -/
theorem lenLoop_succ_fuel (fuel : Nat) (r : Word) (shifts : Nat) (h : r.toNat < 2 ^ (7 * (fuel + 1))) :
    lenLoop (fuel + 1) r shifts = lenLoop fuel r shifts := by
  induction fuel generalizing r shifts with
  | zero => exact if_neg (Nat.not_le.2 h)
  | succ fuel ih =>
    have hshift : (r >>> 7).toNat < 2 ^ (7 * (fuel + 1)) := by
      rw [toNat_ushiftRight_seven, Nat.div_lt_iff_lt_mul (by decide)]
      exact h.trans_eq (by rw [Nat.mul_succ 7 (fuel + 1), Nat.pow_add])
    rw [lenLoop, ih _ _ hshift]
    rfl

theorem lenCalc_of_lt {v : Word} (h : v.toNat < 128) : lenCalc v = 1 :=
  if_neg (Nat.not_le.2 h)

theorem lenCalc_of_le {v : Word} (h : 128 ≤ v.toNat) : lenCalc v = lenCalc (v >>> 7) + 1 := by
  have hshift : (v >>> 7).toNat < 2 ^ (7 * (9 + 1)) := (v >>> 7).isLt.trans (by decide)
  calc lenCalc v = lenLoop 9 (v >>> 7) (0 + 1) := if_pos h
    _ = lenLoop 9 (v >>> 7) 0 + 1 := lenLoop_succ_shifts ..
    _ = lenCalc (v >>> 7) + 1 := by rw [← lenLoop_succ_fuel 9 _ _ hshift]; rfl

theorem lenCalc_pos (v : Word) : 1 ≤ lenCalc v := by
  by_cases h : v.toNat < 128
  · rw [lenCalc_of_lt h]
  · rw [lenCalc_of_le (Nat.not_lt.1 h)]
    omega

/-! ### The bytes of the encoding -/

theorem encByte_of_lt {x : Word} (h : x.toNat < 128) : encByte x = x.setWidth 8 := by
  simp [encByte, moreGroups, Nat.not_le.2 h]

theorem encByte_of_le {x : Word} (h : 128 ≤ x.toNat) : encByte x = (x &&& 0x7F#64).setWidth 8 ||| 0x80#8 := by
  simp [encByte, moreGroups, h]

theorem encByte_toNat_of_lt {x : Word} (h : x.toNat < 128) : (encByte x).toNat = x.toNat := by
  rw [encByte_of_lt h, BitVec.toNat_setWidth]
  omega

theorem encByte_toNat_of_le {x : Word} (h : 128 ≤ x.toNat) : (encByte x).toNat = x.toNat % 128 + 128 := by
  have hgroup : (x &&& 0x7F#64).toNat = x.toNat % 128 := by
    rw [BitVec.toNat_and]
    exact Nat.and_two_pow_sub_one_eq_mod x.toNat 7
  have hbyte : x.toNat % 128 % 2 ^ 8 = x.toNat % 128 := by omega
  have hor : 128 + x.toNat % 128 = 128 ||| x.toNat % 128 :=
    Nat.two_pow_add_eq_or_of_lt (i := 7) (Nat.mod_lt _ (by decide)) 1
  rw [encByte_of_le h, BitVec.toNat_or, BitVec.toNat_setWidth, hgroup, hbyte, Nat.or_comm, Nat.add_comm, hor]
  rfl

theorem continues_encByte (x : Word) : continues (encByte x) = moreGroups x := by
  by_cases h : x.toNat < 128
  · have hb := encByte_toNat_of_lt h
    simp [continues_eq_decide, moreGroups, hb]
  · have hb := encByte_toNat_of_le (Nat.not_lt.1 h)
    simp [continues_eq_decide, moreGroups, hb, Nat.not_lt.1 h]

/-- The payload of the offered byte is the lowest group. -/
theorem payload_encByte_toNat (x : Word) : (payload (encByte x)).toNat = x.toNat % 128 := by
  rw [payload_toNat]
  by_cases h : x.toNat < 128
  · rw [encByte_toNat_of_lt h]
  · rw [encByte_toNat_of_le (Nat.not_lt.1 h)]
    omega

theorem canonicalByte_zero_of_le {v : Word} {n : Nat} (h : 128 ≤ v.toNat) (hn : 1 ≤ n) :
    canonicalByte v (n + 1) 0 = encByte v := by
  rw [encByte_of_le h, canonicalByte, if_pos (by omega)]
  simp

theorem canonicalByte_zero_of_lt {v : Word} (h : v.toNat < 128) : canonicalByte v 1 0 = encByte v := by
  have hv : v &&& 0x7F#64 = v := by
    apply BitVec.eq_of_toNat_eq
    rw [BitVec.toNat_and]
    exact (Nat.and_two_pow_sub_one_eq_mod v.toNat 7).trans (Nat.mod_eq_of_lt h)
  rw [encByte_of_lt h, canonicalByte, if_neg (by decide)]
  simp [hv]

theorem canonicalByte_succ (v : Word) (n i : Nat) :
    canonicalByte v (n + 1) (i + 1) = canonicalByte (v >>> 7) n i := by
  have hshift : v >>> (7 * (i + 1)) = v >>> 7 >>> (7 * i) := by
    rw [← BitVec.shiftRight_add, Nat.mul_succ, Nat.add_comm]
  simp only [canonicalByte, hshift, Nat.add_lt_add_iff_right]

/-! ### The canonical encoding -/

theorem canonical_of_lt {v : Word} (h : v.toNat < 128) : canonical v = [encByte v] := by
  simp [canonical, lenCalc_of_lt h, canonicalByte_zero_of_lt h]

theorem canonical_of_le {v : Word} (h : 128 ≤ v.toNat) : canonical v = encByte v :: canonical (v >>> 7) := by
  rw [canonical, lenCalc_of_le h, List.range_succ_eq_map, List.map_cons, List.map_map,
    canonicalByte_zero_of_le h (lenCalc_pos _)]
  congr 1
  exact List.map_congr_left fun i _ => canonicalByte_succ v _ i

theorem canonical_length (v : Word) : (canonical v).length = lenCalc v := by
  simp [canonical]

theorem wireValue_canonical (v : Word) : wireValue (canonical v) = v.toNat := by
  induction v using groups_induction with
  | last v h =>
    rw [canonical_of_lt h, wireValue, payload_encByte_toNat]
    exact Nat.mod_eq_of_lt h
  | more v h ih =>
    rw [canonical_of_le h, wireValue, payload_encByte_toNat, ih, toNat_ushiftRight_seven]
    omega

/-- The form of the canonical encoding on the wire: continuation bytes, then a terminal byte that is zero for the value
0 only (R78). -/
theorem canonical_form (v : Word) :
    ∃ cs b, canonical v = cs ++ [b] ∧ (∀ c ∈ cs, continues c = true) ∧ continues b = false ∧
      (b = 0#8 → v = 0#64) := by
  induction v using groups_induction with
  | last v h =>
    refine ⟨[], encByte v, canonical_of_lt h, nofun, ?_, fun hb => ?_⟩
    · simp [continues_encByte, moreGroups, h]
    · apply BitVec.eq_of_toNat_eq
      rw [← encByte_toNat_of_lt h, hb]
      rfl
  | more v h ih =>
    obtain ⟨cs, b, hcanonical, hcs, hb, hzero⟩ := ih
    have hhead : continues (encByte v) = true := (continues_encByte v).trans ((moreGroups_iff v).2 h)
    refine ⟨encByte v :: cs, b, by rw [canonical_of_le h, hcanonical]; rfl,
      List.forall_mem_cons.2 ⟨hhead, hcs⟩, hb, fun hb0 => ?_⟩
    have hshift : v.toNat / 128 = 0 := by rw [← toNat_ushiftRight_seven, hzero hb0]; rfl
    omega

/-! ### The value of a varint -/

/-- The groups of a varint with terminal byte `b` stay below the place of `b`'s payload plus one (R76). -/
theorem wireValue_append_lt (cs : List Byte) (b : Byte) :
    wireValue (cs ++ [b]) < ((payload b).toNat + 1) * 2 ^ (7 * cs.length) := by
  induction cs with
  | nil => simp [wireValue]
  | cons c cs ih =>
    have hc := (payload c).isLt
    rw [List.cons_append, wireValue, List.length_cons, Nat.mul_succ, Nat.pow_add, ← Nat.mul_assoc]
    omega

/-- What an accepted varint carries fits the width (41_decoder.md R129, R135). -/
theorem Accepts.wireValue_lt {w : Width} {cs : List Byte} {b : Byte} (h : Accepts w cs b) :
    wireValue (cs ++ [b]) < 2 ^ w.bits := by
  refine (wireValue_append_lt cs b).trans_le ?_
  rw [← fMask_succ_mul w]
  obtain heq | hlt := h.index_bound.eq_or_lt
  · rw [heq]
    exact Nat.mul_le_mul_right _ (Nat.succ_le_succ (h.payload_bound heq))
  · calc ((payload b).toNat + 1) * 2 ^ (7 * cs.length)
        ≤ 2 ^ 7 * 2 ^ (7 * cs.length) := Nat.mul_le_mul_right _ (payload b).isLt
      _ = 2 ^ (7 + 7 * cs.length) := (Nat.pow_add ..).symm
      _ ≤ 2 ^ (7 * maxIdx w) := Nat.pow_le_pow_right Nat.two_pos (by omega)
      _ ≤ (fMask w + 1) * 2 ^ (7 * maxIdx w) := Nat.le_mul_of_pos_left _ (Nat.succ_pos _)

theorem payload_toNat_of_terminal {b : Byte} (hb : continues b = false) : (payload b).toNat = b.toNat := by
  rw [payload_toNat, Nat.mod_eq_of_lt ((not_continues_iff b).1 hb)]

theorem wireValue_append_pos (cs : List Byte) {b : Byte} (hb : continues b = false) (h0 : b ≠ 0#8) :
    0 < wireValue (cs ++ [b]) := by
  induction cs with
  | nil =>
    have hpos : b.toNat ≠ 0 := fun h => h0 (BitVec.eq_of_toNat_eq h)
    simp only [List.nil_append, wireValue, payload_toNat_of_terminal hb]
    omega
  | cons c cs ih =>
    rw [List.cons_append, wireValue]
    omega

theorem canonical_of_toNat_eq_terminal {x : Word} {b : Byte} (hb : continues b = false) (hx : x.toNat = b.toNat) :
    canonical x = [b] := by
  have hlt : x.toNat < 128 := hx.trans_lt ((not_continues_iff b).1 hb)
  have hbyte : encByte x = b := BitVec.eq_of_toNat_eq ((encByte_toNat_of_lt hlt).trans hx)
  rw [canonical_of_lt hlt, hbyte]

/-- A continuation byte is what the canonical encoding puts before the groups above it, unless these are 0. -/
theorem canonical_eq_cons {x : Word} {c : Byte} {n : Nat} (hc : continues c = true) (hn : 0 < n)
    (hx : x.toNat = (payload c).toNat + 2 ^ 7 * n) : canonical x = c :: canonical (x >>> 7) := by
  have hc128 : 128 ≤ c.toNat := (continues_iff c).1 hc
  have hc256 : c.toNat < 256 := c.isLt
  rw [payload_toNat] at hx
  have hmore : 128 ≤ x.toNat := by omega
  have hbyte : encByte x = c := by
    apply BitVec.eq_of_toNat_eq
    rw [encByte_toNat_of_le hmore]
    omega
  rw [canonical_of_le hmore, hbyte]

/-- A varint of one byte, or whose last byte is not zero, is the canonical encoding of the value it carries (R78). -/
theorem canonical_of_toNat_eq_wireValue {x : Word} {cs : List Byte} {b : Byte}
    (hcs : ∀ c ∈ cs, continues c = true) (hb : continues b = false) (hlast : cs = [] ∨ b ≠ 0#8)
    (hx : x.toNat = wireValue (cs ++ [b])) : canonical x = cs ++ [b] := by
  induction cs generalizing x with
  | nil => exact canonical_of_toNat_eq_terminal hb (by simpa [wireValue, payload_toNat_of_terminal hb] using hx)
  | cons c cs ih =>
    obtain ⟨hc, hcs⟩ := List.forall_mem_cons.1 hcs
    have hb0 : b ≠ 0#8 := hlast.resolve_left (List.cons_ne_nil c cs)
    rw [List.cons_append, wireValue] at hx
    have hshift : (x >>> 7).toNat = wireValue (cs ++ [b]) := by
      have := (payload c).isLt
      rw [toNat_ushiftRight_seven]
      omega
    rw [canonical_eq_cons hc (wireValue_append_pos cs hb hb0) hx, ih hcs (.inr hb0) hshift, List.cons_append]

end Sys2Proof.Machine
end

section
/-! The statements of 30_encoding.md. -/

namespace Sys2Proof.Machine

/-- Settles O1: each operation's words decode to its commands, and every word is one of an operation. -/
theorem decodeEncodeRoundTrip : Obligations.DecodeEncodeRoundTrip :=
  ⟨decode_encode, encode_decode⟩

/-- Settles O8: the reset line and the channels' responses are the same in both samples. -/
theorem commandWaitsWhileBusy : Obligations.CommandWaitsWhileBusy := by
  intro s p ps valid op wsel value hbusy hin
  have hs : s.facing (p :: ps) = s := by rw [← hin, facing_self]
  have hstep := step_facing_congr_of_busy (p := p)
    (q := { p with cmdValid := valid, cmdOp := op, cmdWsel := wsel, cmdValue := value }) ps hbusy rfl rfl rfl
  rwa [hs] at hstep

/-- Settles O31: the form of the canonical encoding on the wire, with its length and its value. -/
theorem canonicalEncodingIsMinimal : Obligations.CanonicalEncodingIsMinimal := by
  intro v
  obtain ⟨cs, b, hcanonical, hcs, hb, hzero⟩ := canonical_form v
  have hlength : cs.length + 1 = lenCalc v := by rw [← canonical_length, hcanonical, List.length_append]; rfl
  exact ⟨cs, b, hcanonical, hlength, hcs, hb, hzero, wireValue_canonical v⟩

/-- Settles O32: a canonical encoding ends in a zero byte for the value 0 only, which has one byte. -/
theorem reencodingGivesBackCanonicalInputsOnly : Obligations.ReencodingGivesBackCanonicalInputsOnly := by
  intro w cs b h
  constructor
  · intro hcanonical
    refine or_iff_not_imp_right.2 fun hb => ?_
    obtain ⟨cs', b', hform, -, -, hzero⟩ := canonical_form (BitVec.ofNat 64 (wireValue (cs ++ [b])))
    obtain ⟨-, hlast⟩ := List.append_inj' (hcanonical.symm.trans hform) rfl
    obtain rfl : b = b' := List.singleton_inj.1 hlast
    rw [hzero (not_not.1 hb)] at hcanonical
    have hlength := congrArg List.length hcanonical
    rw [canonical_length, lenCalc_of_lt (by decide), List.length_append, List.length_singleton] at hlength
    exact List.length_eq_zero_iff.1 (by omega)
  · exact fun hlast => canonical_of_toNat_eq_wireValue h.all_continue h.terminal hlast
      (toNat_ofNat_of_lt_bits h.wireValue_lt)

/-- Settles O37: the invariant keeps out the one phase in which a step or a command faults. -/
theorem noStepStopsWithinTheInvariant : Obligations.NoStepStopsWithinTheInvariant :=
  fun _ _ h => ⟨h.steps, h.exec_next⟩

/-- Settles O45: the assembler writes the encoding of the named command, and decoding gives that command back. -/
theorem assemblerWritesTheNamedCommand : Obligations.AssemblerWritesTheNamedCommand := by
  intro native l
  refine ⟨⟨fun hwf => ⟨_, assemble_of_wf hwf⟩, fun ⟨_, h⟩ => wf_of_assemble h⟩, fun cw v h => ?_⟩
  obtain ⟨hwf, hr⟩ := assemble_eq_ok_iff.1 h
  have hdecode : decode cw v = namedCommand native l := by
    rw [← decode_encode (namedCommand native l), ← hr]
  cases l with
  | len n =>
    obtain ⟨rfl, rfl⟩ := Prod.mk.inj hr
    exact ⟨hdecode, Nat.mod_eq_of_lt (decide_eq_true_iff.1 hwf)⟩
  | enc w n =>
    obtain ⟨rfl, rfl⟩ := Prod.mk.inj (hr.trans (encode_enc ..))
    exact ⟨hdecode, toNat_ofNat_of_lt_bits (decide_eq_true_iff.1 hwf)⟩
  | dec w => exact hdecode
  | encUsize n =>
    obtain ⟨rfl, rfl⟩ := Prod.mk.inj (hr.trans (encode_enc ..))
    exact ⟨hdecode, toNat_ofNat_of_lt_bits (decide_eq_true_iff.1 hwf)⟩
  | decUsize => exact hdecode
  | cw n m =>
    obtain ⟨rfl, rfl⟩ := Prod.mk.inj (hr.trans (encode_decode ..))
    obtain ⟨hn, hm⟩ : n < 2 ^ 4 ∧ m < 2 ^ 64 := by simpa [AsmLine.wf] using hwf
    exact ⟨Nat.mod_eq_of_lt hn, Nat.mod_eq_of_lt hm⟩

/-- Settles O46: a mnemonic line writes `i` exactly when it is in range and names `i`. -/
theorem mnemonicFormsAreExact : Obligations.MnemonicFormsAreExact := by
  intro i
  constructor
  · intro h
    obtain ⟨l, hraw, hwf, rfl⟩ := exists_line_of_hasMnemonicForm .w64 h
    exact ⟨.w64, l, hraw, assemble_of_wf hwf⟩
  · rintro ⟨native, l, hraw, h⟩
    obtain ⟨hwf, hi⟩ := assemble_eq_ok_iff.1 h
    rw [encode_injective hi]
    exact hasMnemonicForm_namedCommand hraw hwf

/-- Settles O2: each word is an operation's, with its width-select code written out. -/
theorem sixteenWordsDecodeAsMapped : Obligations.SixteenWordsDecodeAsMapped := fun v =>
  ⟨decode_len 0b00#2 v, decode_len 0b01#2 v, decode_len 0b10#2 v, decode_len 0b11#2 v,
   decode_enc .w8 v, decode_enc .w16 v, decode_enc .w32 v, decode_enc .w64 v,
   decode_dec .w8 v, decode_dec .w16 v, decode_dec .w32 v, decode_dec .w64 v,
   decode_reserved 0b00#2 v, decode_reserved 0b01#2 v, decode_reserved 0b10#2 v, decode_reserved 0b11#2 v⟩

/-- Settles O3: one row covers the word, and the row of the decoded command does, since encoding that gives the word. -/
theorem exactlyOneTableRowCoversAWord : Obligations.ExactlyOneTableRowCoversAWord := by
  intro cw v
  obtain ⟨row, hrow⟩ := List.length_eq_one_iff.1 (covering_rows_length cw)
  obtain ⟨r, hmem, hmnemonic, hcovers⟩ := tableRow_of_instr (decode cw v)
  rw [encode_decode] at hcovers
  have hr : r ∈ opcodeTable.filter (fun r => r.covers cw) := List.mem_filter.2 ⟨hmem, hcovers⟩
  rw [hrow, List.mem_singleton] at hr
  rw [hrow, ← hmnemonic, hr]
  rfl

end Sys2Proof.Machine
end

section
/-! LenCalc in closed form: the least number of groups of 7 bits that holds the value (40_length.md R102). -/

namespace Sys2Proof.Machine

theorem lenCalc_le_succ_iff (v : Word) (n : Nat) : lenCalc v ≤ n + 1 ↔ v.toNat < 2 ^ (7 * (n + 1)) := by
  induction v using groups_induction generalizing n with
  | last v h =>
    have hpow : 2 ^ 7 ≤ 2 ^ (7 * (n + 1)) := Nat.pow_le_pow_right (by decide) (by omega)
    exact iff_of_true (by rw [lenCalc_of_lt h]; omega) (h.trans_le hpow)
  | more v h ih =>
    rw [lenCalc_of_le h]
    cases n with
    | zero =>
      have hpos := lenCalc_pos (v >>> 7)
      exact iff_of_false (by omega) (Nat.not_lt.2 h)
    | succ n =>
      rw [Nat.add_le_add_iff_right, ih, toNat_ushiftRight_seven, Nat.div_lt_iff_lt_mul (by decide),
        Nat.mul_succ 7 (n + 1), Nat.pow_add]

theorem succ_lt_lenCalc_iff (v : Word) (n : Nat) : n + 1 < lenCalc v ↔ 2 ^ (7 * (n + 1)) ≤ v.toNat := by
  rw [← Nat.not_le, lenCalc_le_succ_iff, Nat.not_lt]

theorem lenCalc_le_ten (v : Word) : lenCalc v ≤ 10 :=
  (lenCalc_le_succ_iff v 9).2 (v.isLt.trans (by decide))

theorem lt_two_pow_lenCalc (v : Word) : v.toNat < 2 ^ (7 * lenCalc v) := by
  obtain ⟨n, hn⟩ := Nat.exists_eq_add_of_le' (lenCalc_pos v)
  rw [hn]
  exact (lenCalc_le_succ_iff v n).1 hn.le

theorem two_pow_le_of_lt_lenCalc {v : Word} {m : Nat} (hpos : 1 ≤ m) (h : m < lenCalc v) :
    2 ^ (7 * m) ≤ v.toNat := by
  obtain ⟨n, rfl⟩ := Nat.exists_eq_add_of_le' hpos
  exact (succ_lt_lenCalc_iff v n).1 h

theorem ushiftRight_ne_zero_iff (v : Word) (m : Nat) : v >>> m ≠ 0#64 ↔ 2 ^ m ≤ v.toNat := by
  rw [ne_eq, ← BitVec.toNat_inj, BitVec.toNat_ushiftRight, Nat.shiftRight_eq_div_pow, BitVec.toNat_zero,
    Nat.div_eq_zero_iff_lt (Nat.two_pow_pos m), Nat.not_lt]

end Sys2Proof.Machine
end

section
/-! The statements of 40_length.md. -/

namespace Sys2Proof.Machine

/-- Settles O10: LEN in IDLE is `finish` on the latched command, and LenCalc is the least number of groups that holds
the operand. -/
theorem lenCompletesInItsAcceptingStep : Obligations.LenCompletesInItsAcceptingStep := by
  refine fun wsel v => ⟨decode_len wsel v, fun s hidle =>
    ⟨lenCalc v, lenCalc_pos v, lenCalc_le_ten v, lt_two_pow_lenCalc v, fun _ => two_pow_le_of_lt_lenCalc, ?_⟩⟩
  rw [exec_eq_atPort, atPort_idle hidle, hidle]
  rfl

/-- Settles O11: the recursion of LenCalc on the groups of the value, with its bounds. -/
theorem lenCalcFollowsTheShiftLoop : Obligations.LenCalcFollowsTheShiftLoop := fun v =>
  ⟨lenCalc_of_lt, lenCalc_of_le, lenCalc_pos v, lenCalc_le_ten v⟩

/-- Settles O12: the group at `k` is not zero exactly when `k + 1` is below the length, so the first `lenCalc v - 1` of
the nine are the ones counted. -/
theorem lenCalcCountsNonzeroGroups : Obligations.LenCalcCountsNonzeroGroups := by
  intro v
  have hgroup : ∀ k, (v >>> (7 * (k + 1)) != 0#64) = decide (k < lenCalc v - 1) := fun k => by
    rw [Bool.eq_iff_iff, bne_iff_ne, decide_eq_true_iff, ushiftRight_ne_zero_iff, ← succ_lt_lenCalc_iff,
      Nat.lt_sub_iff_add_lt]
  have hpos := lenCalc_pos v
  have hten := lenCalc_le_ten v
  simp only [hgroup]
  rw [← List.Ico.zero_bot, List.Ico.filter_lt, List.Ico.length]
  omega

end Sys2Proof.Machine
end

section
/-! Accumulating groups is adding them, and the decoder's checks are the bounds of the accepted language
(41_decoder.md R122, R123, R126, R129, R135). -/

namespace Sys2Proof.Machine

/-! ### One group -/

theorem accum_eq_add {acc : Word} {i : Nat} (p : Payload) (hi : i ≤ 9) (hacc : acc.toNat < 2 ^ (7 * i)) :
    accum acc p i = BitVec.ofNat 64 (acc.toNat + p.toNat * 2 ^ (7 * i)) := by
  rw [accum_eq acc p i hi, Nat.or_comm, ← Nat.shiftLeft_add_eq_or_of_lt hacc, Nat.shiftLeft_eq, Nat.add_comm]

/-- `Accum` at any index, on numbers (R126). -/
theorem accum_eq_ite (acc : Word) (p : Payload) (i : Nat) :
    accum acc p i = if i ≤ 9 then BitVec.ofNat 64 (acc.toNat ||| (p.toNat <<< (7 * i))) else acc := by
  split
  · exact accum_eq acc p i ‹_›
  · exact accum_of_lt acc p i (by omega)

/-- The saturated index reaches the same bits as the exact one (R126). -/
theorem accum_min_ten (acc : Word) (p : Payload) (n : Nat) : accum acc p (min n 10) = accum acc p n := by
  by_cases h : n ≤ 10
  · rw [Nat.min_eq_left h]
  · rw [accum_of_lt _ _ _ (by omega), accum_of_lt _ _ _ (by omega)]

/-! ### The boundary check -/

theorem boundaryOverflow_eq_true_iff (w : Width) (i : Nat) (p : Payload) :
    boundaryOverflow w i p = true ↔ maxIdx w < i ∨ i = maxIdx w ∧ fMask w < p.toNat := by
  simp [boundaryOverflow]

theorem boundaryOverflow_eq_false_iff (w : Width) (i : Nat) (p : Payload) :
    boundaryOverflow w i p = false ↔ i ≤ maxIdx w ∧ (i = maxIdx w → p.toNat ≤ fMask w) := by
  rw [← Bool.not_eq_true, boundaryOverflow_eq_true_iff, not_or, not_and, Nat.not_lt, Nat.not_lt]

theorem boundaryOverflow_min_ten (w : Width) (n : Nat) (p : Payload) :
    boundaryOverflow w (min n 10) p = boundaryOverflow w n p := by
  have hmax := maxIdx_le w
  rw [Bool.eq_iff_iff, boundaryOverflow_eq_true_iff, boundaryOverflow_eq_true_iff]
  omega

/-- A group that passes the boundary check lies within the width's bits (R129). -/
theorem succ_mul_le_of_not_boundaryOverflow {w : Width} {i : Nat} {p : Payload}
    (h : boundaryOverflow w i p = false) : (p.toNat + 1) * 2 ^ (7 * i) ≤ 2 ^ w.bits := by
  obtain ⟨hle, hmask⟩ := (boundaryOverflow_eq_false_iff w i p).1 h
  rw [← fMask_succ_mul w]
  obtain rfl | hlt := hle.eq_or_lt
  · exact Nat.mul_le_mul_right _ (Nat.succ_le_succ (hmask rfl))
  · calc (p.toNat + 1) * 2 ^ (7 * i) ≤ 2 ^ 7 * 2 ^ (7 * i) := Nat.mul_le_mul_right _ p.isLt
      _ = 2 ^ (7 + 7 * i) := (Nat.pow_add ..).symm
      _ ≤ 2 ^ (7 * maxIdx w) := Nat.pow_le_pow_right Nat.two_pos (by omega)
      _ ≤ (fMask w + 1) * 2 ^ (7 * maxIdx w) := Nat.le_mul_of_pos_left _ (Nat.succ_pos _)

theorem accepts_iff (w : Width) (cs : List Byte) (b : Byte) :
    Accepts w cs b ↔ (∀ c ∈ cs, continues c = true) ∧ continues b = false ∧
      boundaryOverflow w cs.length (payload b) = false := by
  rw [boundaryOverflow_eq_false_iff]
  exact ⟨fun ⟨hcs, hb, hi, hp⟩ => ⟨hcs, hb, hi, hp⟩, fun ⟨hcs, hb, hi, hp⟩ => ⟨hcs, hb, hi, hp⟩⟩

theorem Overflows.boundaryOverflow {w : Width} {cs : List Byte} {b : Byte} (h : Overflows w cs b) :
    boundaryOverflow w cs.length (payload b) = true :=
  (boundaryOverflow_eq_true_iff ..).2 h.outside

/-! ### The narrowing check -/

theorem narrowOverflow_eq_true_iff (w : Width) (v : Word) : narrowOverflow w v = true ↔ 2 ^ w.bits ≤ v.toNat := by
  simp [narrowOverflow]

theorem narrowOverflow_eq_false_iff (w : Width) (v : Word) : narrowOverflow w v = false ↔ v.toNat < 2 ^ w.bits := by
  simp [narrowOverflow]

/-- The accumulated value fits the width after the boundary check (R129). -/
theorem accum_lt_of_not_boundaryOverflow {w : Width} {acc : Word} {i : Nat} {p : Payload}
    (h : boundaryOverflow w i p = false) (hacc : acc.toNat < 2 ^ (7 * i)) : (accum acc p i).toNat < 2 ^ w.bits := by
  have hi : i ≤ 9 := ((boundaryOverflow_eq_false_iff w i p).1 h).1.trans (maxIdx_le w)
  rw [accum_eq_add p hi hacc, BitVec.toNat_ofNat]
  calc (acc.toNat + p.toNat * 2 ^ (7 * i)) % 2 ^ 64 ≤ acc.toNat + p.toNat * 2 ^ (7 * i) := Nat.mod_le ..
    _ < (p.toNat + 1) * 2 ^ (7 * i) := by rw [Nat.add_one_mul p.toNat]; omega
    _ ≤ 2 ^ w.bits := succ_mul_le_of_not_boundaryOverflow h

/-! ### A terminal byte -/

section

variable {w : Width} {n : Nat} {b : Byte}

theorem terminalCompletion_of_boundary (acc : Word) (h : boundaryOverflow w n (payload b) = true) :
    terminalCompletion w acc n b = ⟨.overflow, 0#64, 0, n + 1⟩ :=
  if_pos h

theorem terminalCompletion_of_narrow {acc : Word} (h : narrowOverflow w (accum acc (payload b) n) = true) :
    terminalCompletion w acc n b = ⟨.overflow, 0#64, 0, n + 1⟩ := by
  rw [terminalCompletion, if_pos h, ite_self]

theorem terminalCompletion_of_fits {acc : Word} (hb : boundaryOverflow w n (payload b) = false)
    (hn : narrowOverflow w (accum acc (payload b) n) = false) :
    terminalCompletion w acc n b = ⟨.ok, accum acc (payload b) n, 0, n + 1⟩ := by
  simp only [terminalCompletion, hb, hn, Bool.false_eq_true, if_false]

end

theorem terminalCompletion_consumed (w : Width) (acc : Word) (n : Nat) (b : Byte) :
    (terminalCompletion w acc n b).consumed = n + 1 := by
  simp only [terminalCompletion]
  split_ifs <;> rfl

/-- The saturated index leads to the outcome of the exact one (R126, R136). -/
theorem terminalCompletion_min_ten (w : Width) (acc : Word) (n : Nat) (b : Byte) :
    terminalCompletion w acc (min n 10) b = { terminalCompletion w acc n b with consumed := min n 10 + 1 } := by
  simp only [terminalCompletion, boundaryOverflow_min_ten, accum_min_ten]
  split_ifs <;> rfl

/-- `finish` with the outcome of a functional completion (60_exceptions.md R181). -/
def finishWith (c : Completion) (s : State) : State := finish c.status c.result c.ioCode s

/-- The block ends a terminal byte with the outcome of the functional form at its own index (R122, R123, R136). -/
theorem decTerminal_eq_finishWith (b : Byte) (s : State) :
    decTerminal b s = finishWith (terminalCompletion (Width.ofCode s.wsel) s.acc s.idx.toNat b) s := by
  simp only [decTerminal, terminalCompletion]
  split_ifs <;> rfl

/-! ### All groups of a varint -/

/-- The accumulator after the bytes `cs` from index `n` on: what `Decode` carries along (R136), see
`decodeFrom_append`. -/
def accumFrom (acc : Word) (n : Nat) : List Byte → Word
  | [] => acc
  | c :: cs => accumFrom (accum acc (payload c) n) (n + 1) cs

theorem accumFrom_append_singleton (acc : Word) (n : Nat) (cs : List Byte) (b : Byte) :
    accumFrom acc n (cs ++ [b]) = accum (accumFrom acc n cs) (payload b) (n + cs.length) := by
  induction cs generalizing acc n with
  | nil => rfl
  | cons c cs ih =>
    rw [List.cons_append, accumFrom, ih, List.length_cons, Nat.add_assoc, Nat.add_comm 1]
    rfl

theorem wireValue_append_singleton (cs : List Byte) (b : Byte) :
    wireValue (cs ++ [b]) = wireValue cs + (payload b).toNat * 2 ^ (7 * cs.length) := by
  induction cs with
  | nil => simp [wireValue]
  | cons c cs ih =>
    rw [List.cons_append, wireValue, wireValue, ih, List.length_cons, Nat.mul_succ, Nat.pow_add]
    ring

theorem wireValue_lt_two_pow (cs : List Byte) : wireValue cs < 2 ^ (7 * cs.length) := by
  induction cs with
  | nil => exact Nat.one_pos
  | cons c cs ih =>
    have hc := (payload c).isLt
    rw [wireValue, List.length_cons, Nat.mul_succ, Nat.pow_add]
    omega

/-- Up to ten groups the accumulator holds the sum of the groups modulo 2^64 (R76, R126). -/
theorem accumFrom_eq_wireValue {cs : List Byte} (h : cs.length ≤ 10) :
    accumFrom 0#64 0 cs = BitVec.ofNat 64 (wireValue cs) := by
  induction cs using List.reverseRecOn with
  | nil => rfl
  | append_singleton cs b ih =>
    rw [List.length_append, List.length_singleton] at h
    have hlt := wireValue_lt_two_pow cs
    have h64 : wireValue cs < 2 ^ 64 := hlt.trans_le (Nat.pow_le_pow_right Nat.two_pos (by omega))
    have hacc : (accumFrom 0#64 0 cs).toNat = wireValue cs := by
      rw [ih (by omega), BitVec.toNat_ofNat, Nat.mod_eq_of_lt h64]
    rw [accumFrom_append_singleton, Nat.zero_add, accum_eq_add _ (by omega) (hacc ▸ hlt), hacc,
      wireValue_append_singleton]

end Sys2Proof.Machine
end

section
/-! One step of a running DEC by its response, and the acceptance of a DEC (41_decoder.md R120 to R122). -/

namespace Sys2Proof.Machine

theorem step_decRun_of_inputs {s : State} {p : Ports} {ps : List Ports} (hp : s.phase = .decRun)
    (hin : s.inputs = p :: ps) (hr : p.rst = false) : step s = .next ((decStep p.source s).facing ps) := by
  rw [← step_facing_decRun hp hr, ← hin, facing_self]

theorem decStep_byte_of_continues {b : Byte} (hb : continues b = true) (s : State) :
    decStep (some (.byte b)) s = decContinue b (byteTaken b s) := by
  rw [decStep, decByte, if_pos hb]

theorem decStep_byte_of_terminal {b : Byte} (hb : continues b = false) (s : State) :
    decStep (some (.byte b)) s = decTerminal b (byteTaken b s) := by
  rw [decStep, decByte, hb]
  rfl

theorem exec_dec_idle {w : Width} (v : Word) {s : State} (h : s.phase = .idle) :
    exec (Instr.dec w v) s = .next (decAccept w.code s) := by
  rw [exec_eq_atPort, atPort_idle h, acceptOf_dec]

/-- The numbers of 30_encoding.md R79 are those of the width with that code. -/
theorem width_numbers_of_mem_table {c : WidthCode} {W maxI mask : Nat}
    (h : (c, W, maxI, mask) ∈
      [(0b00#2, 8, 1, 0x01), (0b01#2, 16, 2, 0x03), (0b10#2, 32, 4, 0x0F), (0b11#2, 64, 9, 0x01)]) :
    W = (Width.ofCode c).bits ∧ maxI = maxIdx (Width.ofCode c) ∧ mask = fMask (Width.ofCode c) := by
  simp only [List.mem_cons, Prod.mk.injEq, List.not_mem_nil, or_false] at h
  obtain ⟨rfl, rfl, rfl, rfl⟩ | ⟨rfl, rfl, rfl, rfl⟩ | ⟨rfl, rfl, rfl, rfl⟩ | ⟨rfl, rfl, rfl, rfl⟩ := h <;> decide

end Sys2Proof.Machine
end

section
/-! `Decode(W, rs)` on responses split at the one that ends the command (41_decoder.md R135, R136). -/

namespace Sys2Proof.Machine

/-- A response that ends a running DEC: a terminal byte or a failure (R122, R124). -/
def EndsDec : SrcResponse → Prop
  | .byte b => continues b = false
  | .fail _ => True

theorem endsDec_byte {b : Byte} (h : continues b = false) : EndsDec (.byte b) := h

/-- Responses either continue throughout or have a first one that ends the command. -/
theorem responses_cases (rs : List SrcResponse) :
    (∃ cs : List Byte, (∀ c ∈ cs, continues c = true) ∧ rs = cs.map .byte) ∨
    ∃ (cs : List Byte) (r : SrcResponse) (rest : List SrcResponse),
      (∀ c ∈ cs, continues c = true) ∧ EndsDec r ∧ rs = cs.map .byte ++ r :: rest := by
  induction rs with
  | nil => exact .inl ⟨[], nofun, rfl⟩
  | cons r rs ih =>
    rcases r with c | e
    · cases hc : continues c with
      | false => exact .inr ⟨[], .byte c, rs, nofun, hc, rfl⟩
      | true =>
        obtain ⟨cs, hcs, rfl⟩ | ⟨cs, r, rest, hcs, hr, rfl⟩ := ih
        · exact .inl ⟨c :: cs, List.forall_mem_cons.2 ⟨hc, hcs⟩, rfl⟩
        · exact .inr ⟨c :: cs, r, rest, List.forall_mem_cons.2 ⟨hc, hcs⟩, hr, rfl⟩
    · exact .inr ⟨[], .fail e, rs, nofun, trivial, rfl⟩

/-- The completion of DEC when `r` ends it after the continuation bytes `cs`. -/
def completionAfter (w : Width) (cs : List Byte) : SrcResponse → Completion
  | .byte b => terminalCompletion w (accumFrom 0#64 0 cs) cs.length b
  | .fail e => ⟨.ioErr, 0#64, e, cs.length⟩

theorem completionAfter_consumed (w : Width) (cs : List Byte) (r : SrcResponse) :
    (completionAfter w cs r).consumed = cs.length + (bytesHandedOver (some r)).length := by
  rcases r with b | e
  · exact terminalCompletion_consumed ..
  · rfl

/-- Continuation bytes move `Decode` on to the next index, with their groups accumulated. -/
theorem decodeFrom_append (w : Width) (acc : Word) (n : Nat) {cs : List Byte} (rs : List SrcResponse)
    (hcs : ∀ c ∈ cs, continues c = true) :
    decodeFrom w acc n (cs.map .byte ++ rs) = decodeFrom w (accumFrom acc n cs) (n + cs.length) rs := by
  induction cs generalizing acc n with
  | nil => rfl
  | cons c cs ih =>
    obtain ⟨hc, hcs⟩ := List.forall_mem_cons.1 hcs
    rw [List.map_cons, List.cons_append, decodeFrom, if_pos hc, ih _ _ hcs, List.length_cons, Nat.add_assoc,
      Nat.add_comm 1]
    rfl

theorem decodeForm_of_continues (w : Width) {cs : List Byte} (hcs : ∀ c ∈ cs, continues c = true) :
    decodeForm w (cs.map .byte) = none := by
  rw [decodeForm, ← List.append_nil (cs.map _), decodeFrom_append _ _ _ _ hcs]
  rfl

theorem decodeForm_of_ends (w : Width) {cs : List Byte} {r : SrcResponse} (rest : List SrcResponse)
    (hcs : ∀ c ∈ cs, continues c = true) (hr : EndsDec r) :
    decodeForm w (cs.map .byte ++ r :: rest) = some (completionAfter w cs r) := by
  rw [decodeForm, decodeFrom_append _ _ _ _ hcs, Nat.zero_add]
  rcases r with b | e
  · exact if_neg (ne_true_of_eq_false hr)
  · rfl

/-! ### The accepted language -/

theorem completionAfter_of_accepts {w : Width} {cs : List Byte} {b : Byte} (h : Accepts w cs b) :
    completionAfter w cs (.byte b) = ⟨.ok, BitVec.ofNat 64 (wireValue (cs ++ [b])), 0, cs.length + 1⟩ := by
  have hmax := h.index_bound.trans (maxIdx_le w)
  have hvalue : accum (accumFrom 0#64 0 cs) (payload b) cs.length = BitVec.ofNat 64 (wireValue (cs ++ [b])) := by
    have hten : (cs ++ [b]).length ≤ 10 := by
      rw [List.length_append, List.length_singleton]
      omega
    rw [← accumFrom_eq_wireValue hten, accumFrom_append_singleton, Nat.zero_add]
  have hfits : narrowOverflow w (accum (accumFrom 0#64 0 cs) (payload b) cs.length) = false := by
    rw [hvalue, narrowOverflow_eq_false_iff, toNat_ofNat_of_lt_bits h.wireValue_lt]
    exact h.wireValue_lt
  rw [completionAfter, terminalCompletion_of_fits ((accepts_iff w cs b).1 h).2.2 hfits, hvalue]

theorem completionAfter_of_overflows {w : Width} {cs : List Byte} {b : Byte} (h : Overflows w cs b) :
    completionAfter w cs (.byte b) = ⟨.overflow, 0#64, 0, cs.length + 1⟩ :=
  terminalCompletion_of_boundary _ h.boundaryOverflow

theorem accepts_or_overflows (w : Width) {cs : List Byte} {b : Byte} (hcs : ∀ c ∈ cs, continues c = true)
    (hb : continues b = false) : Accepts w cs b ∨ Overflows w cs b := by
  cases hbound : boundaryOverflow w cs.length (payload b) with
  | false => exact .inl ((accepts_iff w cs b).2 ⟨hcs, hb, hbound⟩)
  | true => exact .inr ⟨hcs, hb, (boundaryOverflow_eq_true_iff ..).1 hbound⟩

/-- A completion with OK is that of an accepted varint. -/
theorem accepts_of_completionAfter_ok {w : Width} {cs : List Byte} {r : SrcResponse}
    (hcs : ∀ c ∈ cs, continues c = true) (hr : EndsDec r) (hok : (completionAfter w cs r).status = .ok) :
    ∃ b, r = .byte b ∧ Accepts w cs b := by
  rcases r with b | e
  · obtain h | h := accepts_or_overflows w hcs hr
    · exact ⟨b, rfl, h⟩
    · rw [completionAfter_of_overflows h] at hok
      cases hok
  · cases hok

theorem decodeForm_of_accepts {w : Width} {cs : List Byte} {b : Byte} (rest : List SrcResponse)
    (h : Accepts w cs b) : decodeForm w ((cs ++ [b]).map .byte ++ rest) =
      some ⟨.ok, BitVec.ofNat 64 (wireValue (cs ++ [b])), 0, cs.length + 1⟩ := by
  rw [List.map_append, List.append_assoc, ← completionAfter_of_accepts h]
  exact decodeForm_of_ends w rest h.all_continue h.terminal

/-- A width's bits lie in the groups up to the last index (R14). -/
theorem width_bits_le_mul (w : Width) : w.bits ≤ 7 * (maxIdx w + 1) := by cases w <;> decide

/-- The canonical encoding of a value below 2^W is within the width's bounds (R135). -/
theorem accepts_of_canonical {w : Width} {v : Word} {cs : List Byte} {b : Byte} (hv : v.toNat < 2 ^ w.bits)
    (h : canonical v = cs ++ [b]) : Accepts w cs b := by
  obtain ⟨cs', b', hform, hcs, hb, -⟩ := canonical_form v
  obtain ⟨rfl, hlast⟩ := List.append_inj' (h.symm.trans hform) rfl
  obtain rfl := List.singleton_inj.1 hlast
  refine (accepts_or_overflows w hcs hb).resolve_right fun hover => ?_
  have hvalue : wireValue cs + (payload b).toNat * 2 ^ (7 * cs.length) < (fMask w + 1) * 2 ^ (7 * maxIdx w) := by
    rw [← wireValue_append_singleton, ← h, wireValue_canonical, fMask_succ_mul]
    exact hv
  obtain hlong | ⟨hlen, hmask⟩ := hover.outside
  · have hlength : cs.length < lenCalc v := by
      rw [← canonical_length, h, List.length_append]
      exact Nat.lt_succ_self _
    have hbits := width_bits_le_mul w
    have hpow : 2 ^ w.bits ≤ 2 ^ (7 * cs.length) := Nat.pow_le_pow_right Nat.two_pos (by omega)
    exact absurd (two_pow_le_of_lt_lenCalc (by omega) hlength) (Nat.not_le.2 (hv.trans_le hpow))
  · have hgroup := Nat.mul_le_mul_right (2 ^ (7 * maxIdx w)) (Nat.add_one_le_iff.2 hmask)
    rw [hlen] at hvalue
    omega

end Sys2Proof.Machine
end

section
/-! A DEC command over the samples of a source: the block after its continuation bytes, and after the response that
ends it (41_decoder.md R120 to R125). -/

namespace Sys2Proof.Machine

/-! ### The counters after a number of bytes -/

theorem countUp_ofNat_min (n : Nat) :
    countUp (BitVec.ofNat 4 (min n 15)) = BitVec.ofNat 4 (min (n + 1) 15) := by
  apply BitVec.eq_of_toNat_eq
  rw [countUp_toNat, BitVec.toNat_ofNat, BitVec.toNat_ofNat]
  omega

theorem idxUp_ofNat_min (n : Nat) : idxUp (BitVec.ofNat 4 (min n 10)) = BitVec.ofNat 4 (min (n + 1) 10) := by
  apply BitVec.eq_of_toNat_eq
  rw [idxUp_toNat, BitVec.toNat_ofNat, BitVec.toNat_ofNat]
  omega

theorem toNat_ofNat_min_ten (n : Nat) : (BitVec.ofNat 4 (min n 10)).toNat = min n 10 := by
  rw [BitVec.toNat_ofNat]
  omega

/-! ### The block during a command and after it -/

/-- The block in IDLE state `s` after accepting DEC of width `w` and taking the continuation bytes `cs`. -/
def afterContinuations (w : Width) (cs : List Byte) (s : State) : State :=
  { s with
    phase := .decRun, wsel := w.code, acc := accumFrom 0#64 0 cs
    idx := BitVec.ofNat 4 (min cs.length 10), count := BitVec.ofNat 4 (min cs.length 15)
    done := false, consumed := s.consumed ++ cs }

/-- The same block after the response `r` that ends the command. -/
def afterEnd (w : Width) (cs : List Byte) (r : SrcResponse) (s : State) : State :=
  finishWith (completionAfter w cs r)
    { afterContinuations w cs s with
      count := BitVec.ofNat 4 (min (completionAfter w cs r).consumed 15)
      consumed := s.consumed ++ cs ++ bytesHandedOver (some r) }

theorem decAccept_eq_afterContinuations (w : Width) (s : State) :
    decAccept w.code s = afterContinuations w [] s := by
  simp only [afterContinuations, List.append_nil]
  rfl

theorem decStep_afterContinuations_of_continues (w : Width) (cs : List Byte) {c : Byte} (s : State)
    (hc : continues c = true) :
    decStep (some (.byte c)) (afterContinuations w cs s) = afterContinuations w (cs ++ [c]) s := by
  rw [decStep_byte_of_continues hc]
  simp only [decContinue, byteTaken, afterContinuations, toNat_ofNat_min_ten, accum_min_ten, idxUp_ofNat_min,
    countUp_ofNat_min, accumFrom_append_singleton, Nat.zero_add, List.length_append, List.length_singleton,
    List.append_assoc]

theorem decStep_afterContinuations_of_ends (w : Width) (cs : List Byte) {r : SrcResponse} (s : State)
    (hr : EndsDec r) : decStep (some r) (afterContinuations w cs s) = afterEnd w cs r s := by
  rcases r with b | e
  · rw [decStep_byte_of_terminal hr, decTerminal_eq_finishWith]
    simp only [byteTaken, afterContinuations, afterEnd, toNat_ofNat_min_ten, terminalCompletion_min_ten, ofCode_code,
      countUp_ofNat_min, completionAfter, terminalCompletion_consumed, bytesHandedOver, finishWith, finish]
  · simp only [afterEnd, bytesHandedOver, List.append_nil]
    rfl

/-! ### Runs -/

variable {w : Width} {cs : List Byte} {qs : List Ports}

theorem run_afterContinuations (ds : List Byte) (s : State) (rest : List Ports) (hcs : ∀ c ∈ cs, continues c = true)
    (hq : NoReset qs) (hsrc : qs.filterMap Ports.source = cs.map .byte) :
    run qs.length ((afterContinuations w ds s).facing (qs ++ rest)) =
      .next ((afterContinuations w (ds ++ cs) s).facing rest) := by
  induction qs generalizing ds cs with
  | nil =>
    obtain rfl : cs = [] := List.map_eq_nil_iff.1 hsrc.symm
    rw [List.append_nil]
    rfl
  | cons q qs ih =>
    obtain ⟨hr, hq⟩ := List.forall_mem_cons.1 hq
    rw [List.length_cons, List.cons_append, run_succ _ (step_facing_decRun rfl hr)]
    cases hqs : q.source with
    | none =>
      rw [List.filterMap_cons_none hqs] at hsrc
      exact ih ds hcs hq hsrc
    | some r =>
      rw [List.filterMap_cons_some hqs] at hsrc
      obtain ⟨c, cs, rfl, rfl, hrest⟩ := List.map_eq_cons_iff.1 hsrc.symm
      obtain ⟨hc, hcs⟩ := List.forall_mem_cons.1 hcs
      rw [decStep_afterContinuations_of_continues w ds s hc, ih (ds ++ [c]) hcs hq hrest.symm, List.append_assoc]
      rfl

/-- Continuation bytes, however the source stalls between them, leave DEC running (R125). -/
theorem run_dec_continues (s : State) (rest : List Ports) (hcs : ∀ c ∈ cs, continues c = true) (hq : NoReset qs)
    (hsrc : qs.filterMap Ports.source = cs.map .byte) :
    run qs.length ((decAccept w.code s).facing (qs ++ rest)) = .next ((afterContinuations w cs s).facing rest) := by
  rw [decAccept_eq_afterContinuations, run_afterContinuations [] s rest hcs hq hsrc, List.nil_append]

/-- The response that ends DEC is answered in its own step (R122 to R124). -/
theorem run_dec_ends (s : State) {p : Ports} {r : SrcResponse} (rest : List Ports)
    (hcs : ∀ c ∈ cs, continues c = true) (hq : NoReset qs) (hsrc : qs.filterMap Ports.source = cs.map .byte)
    (hr : EndsDec r) (hp : p.rst = false) (hpsrc : p.source = some r) :
    run (qs.length + 1) ((decAccept w.code s).facing (qs ++ p :: rest)) = .next ((afterEnd w cs r s).facing rest) := by
  rw [run_add _ 1 (run_dec_continues s (p :: rest) hcs hq hsrc), run_succ _ (step_facing_decRun rfl hp), hpsrc,
    decStep_afterContinuations_of_ends w cs s hr]
  rfl

/-- At every step before the one that ends it DEC is running. -/
theorem run_dec_not_done (s : State) (rest : List Ports) (hcs : ∀ c ∈ cs, continues c = true) (hq : NoReset qs)
    (hsrc : qs.filterMap Ports.source = cs.map .byte) {j : Nat} (hj : j ≤ qs.length) :
    ∃ m, run j ((decAccept w.code s).facing (qs ++ rest)) = .next m ∧ m.done = false := by
  rw [← List.take_append_drop j qs, List.filterMap_append, eq_comm] at hsrc
  obtain ⟨ds, ds', rfl, htake, -⟩ := List.map_eq_append_iff.1 hsrc
  have hds : ∀ c ∈ ds, continues c = true := fun c hc => hcs c (List.mem_append_left _ hc)
  have hrun := run_dec_continues (w := w) s (qs.drop j ++ rest) hds (fun p hp => hq p (List.mem_of_mem_take hp))
    htake.symm
  rw [← List.append_assoc, List.take_append_drop, List.length_take, Nat.min_eq_left hj] at hrun
  exact ⟨_, hrun, rfl⟩

/-- The samples up to the one that answers `r`, from the responses up to `r`. -/
theorem exists_samples_of_responses {r : SrcResponse} {before after : List SrcResponse}
    (h : qs.filterMap Ports.source = before ++ r :: after) :
    ∃ q₁ p q₂, qs = q₁ ++ p :: q₂ ∧ q₁.filterMap Ports.source = before ∧ p.source = some r := by
  obtain ⟨l₁, l₂, rfl, h₁, h₂⟩ := List.filterMap_eq_append_iff.1 h
  obtain ⟨l₃, p, q₂, rfl, hnone, hp, -⟩ := List.filterMap_eq_cons_iff.1 h₂
  refine ⟨l₁ ++ l₃, p, q₂, (List.append_assoc ..).symm, ?_, hp⟩
  rw [List.filterMap_append, h₁, List.filterMap_eq_nil_iff.2 hnone, List.append_nil]

end Sys2Proof.Machine
end

section
/-! An ENC command over the acknowledgements of a sink: the block after a number of bytes, and after the last
(42_encoder.md R150 to R155). -/

namespace Sys2Proof.Machine

/-! ### The bytes offered one after the other -/

/-- After `k` bytes the encoder offers byte `k` of the canonical encoding (R151, R154). -/
theorem canonical_take_succ {v : Word} {k : Nat} (h : k < lenCalc v) :
    (canonical v).take (k + 1) = (canonical v).take k ++ [encByte (v >>> (7 * k))] := by
  induction v using groups_induction generalizing k with
  | last v hv =>
    rw [lenCalc_of_lt hv] at h
    obtain rfl : k = 0 := by omega
    simp [canonical_of_lt hv]
  | more v hv ih =>
    rw [canonical_of_le hv]
    cases k with
    | zero => simp
    | succ k =>
      rw [lenCalc_of_le hv] at h
      rw [List.take_succ_cons, List.take_succ_cons, ih (by omega), ← BitVec.shiftRight_add, List.cons_append,
        Nat.mul_succ, Nat.add_comm 7]

/-- More groups are to come exactly when the byte is not the last (R102, R151). -/
theorem moreGroups_ushiftRight (v : Word) (k : Nat) : moreGroups (v >>> (7 * k)) = decide (k + 1 < lenCalc v) := by
  rw [Bool.eq_iff_iff, moreGroups_iff, decide_eq_true_iff, succ_lt_lenCalc_iff, BitVec.toNat_ushiftRight,
    Nat.shiftRight_eq_div_pow, Nat.le_div_iff_mul_le (Nat.two_pow_pos _), Nat.mul_succ, Nat.add_comm, Nat.pow_add]

theorem countUp_ofNat {k : Nat} (h : k ≤ 9) : countUp (BitVec.ofNat 4 k) = BitVec.ofNat 4 (k + 1) := by
  have hmin := countUp_ofNat_min k
  rwa [Nat.min_eq_left (by omega), Nat.min_eq_left (by omega)] at hmin

theorem encOperand_of_lt {w : Width} {v : Word} (h : v.toNat < 2 ^ w.bits) : encOperand w v = v := by
  apply BitVec.eq_of_toNat_eq
  rw [encOperand_toNat, Nat.mod_eq_of_lt h]

/-! ### The block during a command and after it -/

/-- The block in IDLE state `s` after accepting ENC of width `w` with operand `x` and having `k` bytes acknowledged. -/
def afterAcks (w : Width) (x : Word) (k : Nat) (s : State) : State :=
  { s with
    phase := .encRun, wsel := w.code, x := x >>> (7 * k), count := BitVec.ofNat 4 k, done := false
    written := s.written ++ (canonical x).take k }

/-- The same block after the last acknowledgement. -/
def afterLastAck (w : Width) (x : Word) (s : State) : State :=
  { s with
    wsel := w.code, x := x >>> (7 * (lenCalc x - 1)), count := BitVec.ofNat 4 (lenCalc x)
    result := BitVec.ofNat 64 (lenCalc x), status := .ok, ioCode := 0, done := true, phase := .idle
    written := s.written ++ canonical x }

theorem encAccept_eq_afterAcks (w : Width) (v : Word) (s : State) :
    encAccept w.code v s = afterAcks w (encOperand w v) 0 s := by
  simp only [encAccept, ofCode_code, afterAcks, List.take_zero, List.append_nil, Nat.mul_zero, BitVec.ushiftRight_zero]
  rfl

variable {w : Width} {x : Word} {k : Nat}

theorem encStep_afterAcks_of_more (s : State) (h : k + 1 < lenCalc x) :
    encStep (some .ack) (afterAcks w x k s) = afterAcks w x (k + 1) s := by
  have hten := lenCalc_le_ten x
  have hmore : moreGroups (x >>> (7 * k)) = true := (moreGroups_ushiftRight x k).trans (decide_eq_true h)
  simp only [encStep, encAcked, byteWritten, afterAcks, hmore, if_true, countUp_ofNat (k := k) (by omega),
    canonical_take_succ (Nat.lt_of_succ_lt h), ← BitVec.shiftRight_add, Nat.mul_succ, List.append_assoc]

theorem encStep_afterAcks_last (s : State) (h : k + 1 = lenCalc x) :
    encStep (some .ack) (afterAcks w x k s) = afterLastAck w x s := by
  have hten := lenCalc_le_ten x
  have hlast : moreGroups (x >>> (7 * k)) = false := by simp [moreGroups_ushiftRight, h]
  have hbytes : (canonical x).take k ++ [encByte (x >>> (7 * k))] = canonical x := by
    rw [← canonical_take_succ (by omega), h, ← canonical_length, List.take_length]
  have hcount : (BitVec.ofNat 4 (k + 1)).setWidth 64 = BitVec.ofNat 64 (k + 1) := by
    apply BitVec.eq_of_toNat_eq
    simp only [BitVec.toNat_setWidth, BitVec.toNat_ofNat]
    omega
  simp only [encStep, encAcked, byteWritten, afterAcks, hlast, Bool.false_eq_true, if_false,
    countUp_ofNat (k := k) (by omega), hcount, List.append_assoc, hbytes, afterLastAck, finish, ← h, Nat.add_sub_cancel]

/-! ### Runs -/

theorem run_afterAcks {j : Nat} {qs : List Ports} (s : State) (rest : List Ports) (hk : k + j < lenCalc x)
    (hq : NoReset qs) (hsink : qs.filterMap Ports.sink = List.replicate j .ack) :
    run qs.length ((afterAcks w x k s).facing (qs ++ rest)) = .next ((afterAcks w x (k + j) s).facing rest) := by
  induction qs generalizing k j with
  | nil =>
    obtain rfl : j = 0 := (List.replicate_eq_nil_iff _).1 hsink.symm
    rfl
  | cons q qs ih =>
    obtain ⟨hr, hq⟩ := List.forall_mem_cons.1 hq
    rw [List.length_cons, List.cons_append, run_succ _ (step_facing_encRun rfl hr)]
    cases hqs : q.sink with
    | none =>
      rw [List.filterMap_cons_none hqs] at hsink
      exact ih hk hq hsink
    | some r =>
      rw [List.filterMap_cons_some hqs] at hsink
      cases j with
      | zero => cases hsink
      | succ j =>
        obtain ⟨rfl, hrest⟩ := List.cons.inj hsink
        rw [encStep_afterAcks_of_more s (by omega), ih (by omega) hq hrest, Nat.add_assoc, Nat.add_comm 1]

/-- An ENC whose sink acknowledges every byte, however it stalls, completes at the last acknowledgement (R152, R154). -/
theorem run_enc_acknowledged (v : Word) {qs : List Ports} {p : Ports} (s : State) (rest : List Ports) (hq : NoReset qs)
    (hsink : qs.filterMap Ports.sink = List.replicate (lenCalc (encOperand w v) - 1) .ack)
    (hp : p.rst = false) (hpsink : p.sink = some .ack) :
    run (qs.length + 1) ((encAccept w.code v s).facing (qs ++ p :: rest)) =
      .next ((afterLastAck w (encOperand w v) s).facing rest) := by
  have hpos := lenCalc_pos (encOperand w v)
  rw [encAccept_eq_afterAcks, run_add _ 1 (run_afterAcks s (p :: rest) (by omega) hq hsink),
    run_succ _ (step_facing_encRun rfl hp), hpsink, encStep_afterAcks_last s (by omega)]
  rfl

theorem exec_enc_idle (v : Word) {s : State} (h : s.phase = .idle) :
    exec (Instr.enc w v) s = .next (encAccept w.code v s) := by
  rw [exec_eq_atPort, atPort_idle h, acceptOf_enc]

end Sys2Proof.Machine
end

section
/-! The statements of 41_decoder.md. -/

namespace Sys2Proof.Machine

/-- Settles O15: a continuation byte is taken and accumulated, and no check stands between. -/
theorem decContinuationByteStep : Obligations.DecContinuationByteStep := by
  intro s p ps hp hin hr hv hf hb
  rw [step_decRun_of_inputs hp hin hr, (source_eq_byte_iff p p.inData).2 ⟨hv, hf, rfl⟩,
    decStep_byte_of_continues ((continues_iff _).2 hb), ← payload_toNat, ← accum_eq_ite]
  rfl

/-- Settles O16: the terminal byte is taken first; then the two checks of R122 and R123 on the numbers of its width. -/
theorem decTerminalByteStep : Obligations.DecTerminalByteStep := by
  intro s p ps W maxI mask hmem hp hin hr hv hf hb
  obtain ⟨rfl, rfl, rfl⟩ := width_numbers_of_mem_table hmem
  have hterm : continues p.inData = false := (not_continues_iff _).2 hb
  rw [step_decRun_of_inputs hp hin hr, (source_eq_byte_iff p p.inData).2 ⟨hv, hf, rfl⟩,
    decStep_byte_of_terminal hterm, decTerminal_eq_finishWith]
  simp only [← payload_toNat_of_terminal hterm, ← accum_eq_ite, ← boundaryOverflow_eq_true_iff,
    ← narrowOverflow_eq_true_iff, byteTaken_wsel, byteTaken_idx, byteTaken_acc]
  by_cases hbound : boundaryOverflow (Width.ofCode s.wsel) s.idx.toNat (payload p.inData) = true
  · rw [terminalCompletion_of_boundary _ hbound, if_pos hbound]
    rfl
  rw [if_neg hbound]
  by_cases hnarrow : narrowOverflow (Width.ofCode s.wsel) (accum s.acc (payload p.inData) s.idx.toNat) = true
  · rw [terminalCompletion_of_narrow hnarrow, if_pos hnarrow]
    rfl
  · rw [terminalCompletion_of_fits (eq_false_of_ne_true hbound) (eq_false_of_ne_true hnarrow), if_neg hnarrow]
    rfl

/-- Settles O17: the groups below the terminal byte's fill only bits below it, so the boundary check bounds the sum. -/
theorem narrowingCheckNeverFires : Obligations.NarrowingCheckNeverFires := by
  intro errW s b hinv hp hr hsrc hb hbound
  have hi : s.idx.toNat ≤ 9 := ((boundaryOverflow_eq_false_iff ..).1 hbound).1.trans (maxIdx_le _)
  have hv := accum_lt_of_not_boundaryOverflow hbound (hinv.dec_acc hp hi)
  refine ⟨_, step_decRun hr hp, ?_⟩
  rw [hsrc, decStep_byte_of_terminal hb, decTerminal_eq_finishWith, byteTaken_wsel, byteTaken_acc, byteTaken_idx,
    terminalCompletion_of_fits hbound ((narrowOverflow_eq_false_iff ..).2 hv)]
  exact ⟨rfl, hv⟩

/-- Settles O19: below the accumulated groups OR is addition, and index 10 is past the last bit. -/
theorem accumIsAdditionOfAGroup : Obligations.AccumIsAdditionOfAGroup :=
  fun acc p i => ⟨accum_eq_add p, accum_of_lt acc p i⟩

/-- Settles O20: the terminal byte of an accepted varint ends the run with the sum of its groups. -/
theorem decCompletesOnAcceptedVarints : Obligations.DecCompletesOnAcceptedVarints := by
  intro w v s cs b qs p hidle h hq hsrc hp
  obtain ⟨hqs, hr⟩ := List.forall_mem_append.1 hq
  have hcount : min (cs.length + 1) 15 = cs.length + 1 := by
    have hmax := h.index_bound.trans (maxIdx_le w)
    omega
  refine ⟨_, _, exec_dec_idle v hidle,
    run_dec_ends s [] h.all_continue hqs hsrc (endsDec_byte h.terminal) (hr p (List.mem_singleton_self p)) hp,
    h.wireValue_lt, ?_⟩
  simp only [afterEnd, completionAfter_of_accepts h, hcount, hidle]
  rfl

/-- Settles O21: the terminal byte of a varint outside the bounds ends the run in OVERFLOW. -/
theorem decOverflowsOutsideTheBounds : Obligations.DecOverflowsOutsideTheBounds := by
  intro w v s cs b qs p hidle h hq hsrc hp
  obtain ⟨hqs, hr⟩ := List.forall_mem_append.1 hq
  refine ⟨_, _, exec_dec_idle v hidle,
    run_dec_ends s [] h.all_continue hqs hsrc (endsDec_byte h.terminal) (hr p (List.mem_singleton_self p)) hp, ?_⟩
  simp only [afterEnd, completionAfter_of_overflows h, hidle]
  rfl

/-- Settles O22: a continuation byte at any index leaves DEC running. -/
theorem decHangsOnContinuationBytes : Obligations.DecHangsOnContinuationBytes := by
  intro w v s cs qs hidle hq hsrc hcs
  have hrun := run_dec_continues (w := w) s [] hcs hq hsrc
  rw [List.append_nil] at hrun
  exact ⟨_, _, exec_dec_idle v hidle, hrun, rfl⟩

/-- Settles O23: the responses either continue throughout, and so do both forms, or a first one ends both. -/
theorem stepRulesAgreeWithDecode : Obligations.StepRulesAgreeWithDecode := by
  intro w v s qs hidle hq
  refine ⟨_, exec_dec_idle v hidle, ?_⟩
  obtain ⟨cs, hcs, hsrc⟩ | ⟨cs, r, rest, hcs, hr, hsrc⟩ := responses_cases (qs.filterMap Ports.source)
  · have hrun := run_dec_continues (w := w) s [] hcs hq hsrc
    rw [List.append_nil] at hrun
    rw [hsrc, decodeForm_of_continues w hcs]
    exact ⟨_, hrun, rfl, rfl⟩
  · rw [hsrc, decodeForm_of_ends w rest hcs hr]
    obtain ⟨q₁, p, q₂, rfl, hsrc₁, hp⟩ := exists_samples_of_responses hsrc
    obtain ⟨hq₁, hq₂⟩ := List.forall_mem_append.1 hq
    obtain ⟨hrst, -⟩ := List.forall_mem_cons.1 hq₂
    have hconsumed : (afterEnd w cs r s).consumed.length = s.consumed.length + (completionAfter w cs r).consumed := by
      rw [completionAfter_consumed, ← Nat.add_assoc, ← List.length_append, ← List.length_append]
      rfl
    refine ⟨q₁.length + 1, _, by simp, run_dec_ends s q₂ hcs hq₁ hsrc₁ hr hrst hp, rfl, rfl, rfl, rfl, rfl, rfl,
      hconsumed, by simp, fun j hj => ?_⟩
    exact run_dec_not_done s (p :: q₂) hcs hq₁ hsrc₁ (Nat.le_of_lt_succ hj)

/-- Settles O24: a completion with OK is that of an accepted varint, and each of those completes with OK. -/
theorem acceptedLanguageIsExact : Obligations.AcceptedLanguageIsExact := by
  intro w rs value code n
  constructor
  · intro h
    obtain ⟨cs, hcs, rfl⟩ | ⟨cs, r, rest, hcs, hr, rfl⟩ := responses_cases rs
    · rw [decodeForm_of_continues w hcs] at h
      cases h
    · rw [decodeForm_of_ends w rest hcs hr] at h
      have hend := Option.some.inj h
      obtain ⟨b, rfl, haccepts⟩ := accepts_of_completionAfter_ok hcs hr (congrArg Completion.status hend)
      rw [completionAfter_of_accepts haccepts] at hend
      cases hend
      have hvalue := toNat_ofNat_of_lt_bits haccepts.wireValue_lt
      exact ⟨cs, b, rest, haccepts, by simp, hvalue, hvalue.trans_lt haccepts.wireValue_lt, rfl, rfl⟩
  · rintro ⟨cs, b, rest, haccepts, rfl, hvalue, -, rfl, rfl⟩
    have hword : BitVec.ofNat 64 (wireValue (cs ++ [b])) = value := by
      rw [← hvalue, BitVec.ofNat_toNat, BitVec.setWidth_eq]
    rw [decodeForm_of_accepts rest haccepts, hword]

/-- Settles O33: the canonical encoding of the value is an accepted varint that carries it. -/
theorem decodeOfCanonicalIsTheValue : Obligations.DecodeOfCanonicalIsTheValue := by
  intro w v hv
  obtain ⟨cs, b, hcanonical, -⟩ := canonical_form v
  refine (acceptedLanguageIsExact w _ v 0 (lenCalc v)).2
    ⟨cs, b, [], accepts_of_canonical hv hcanonical, by rw [hcanonical, List.append_nil], ?_, hv, rfl, ?_⟩
  · rw [← hcanonical, wireValue_canonical]
  · rw [← canonical_length, hcanonical, List.length_append, List.length_singleton]

/-- Settles O34: ENC writes the canonical encoding, which is an accepted varint of as many bytes that carries the
operand. -/
theorem encodeThenDecodeReturnsTheOperand : Obligations.EncodeThenDecodeReturnsTheOperand := by
  intro w v v' s qs ps p q cs b hidle hv hq hsink hp hq' hsrc hqsrc
  obtain ⟨hqs, hr⟩ := List.forall_mem_append.1 hq
  have hoperand : encOperand w v = v := encOperand_of_lt hv
  have hrun := run_enc_acknowledged (w := w) v s [] hqs (hoperand.symm ▸ hsink) (hr p (List.mem_singleton_self p)) hp
  rw [hoperand] at hrun
  refine ⟨_, _, exec_enc_idle v hidle, hrun, fun hwritten => ?_⟩
  have hcanonical : canonical v = cs ++ [b] := by
    rw [List.append_assoc] at hwritten
    exact List.append_cancel_left hwritten
  obtain ⟨t', u', hexec, hdec, -, hu⟩ := decCompletesOnAcceptedVarints w v' ((afterLastAck w v s).facing []) cs b ps q rfl
    (accepts_of_canonical hv hcanonical) hq' hsrc hqsrc
  have hlength : cs.length + 1 = lenCalc v := by rw [← canonical_length, hcanonical, List.length_append]; rfl
  rw [← hcanonical, wireValue_canonical, BitVec.ofNat_toNat, BitVec.setWidth_eq, hlength] at hu
  refine ⟨t', u', hexec, hdec, ?_⟩
  rw [hu]
  exact ⟨rfl, rfl, rfl, rfl, rfl⟩

/-- Settles O14: the words of R72 and R73 with op 0b10, and the acceptance of each width's DEC. -/
theorem decAcceptance : Obligations.DecAcceptance := by
  intro v s hidle
  have accepted (w : Width) : decode (CmdWord.make 0b10#2 w.code) v = Instr.dec w v ∧
      exec (Instr.dec w v) s = .next (decAccept w.code s) := ⟨decode_dec w v, exec_dec_idle v hidle⟩
  simp only [List.forall_mem_cons]
  exact ⟨accepted .w8, accepted .w16, accepted .w32, accepted .w64, nofun⟩

/-- Settles O18: a failure is answered with `finish`, whatever has been accumulated. -/
theorem decSourceFailureStep : Obligations.DecSourceFailureStep := by
  intro s p ps hp hin hr hv hf
  rw [step_decRun_of_inputs hp hin hr, (source_eq_fail_iff p p.inCode).2 ⟨hv, hf, rfl⟩]
  rfl

end Sys2Proof.Machine
end

section
/-! One step of a running ENC by the sink's response, and an ENC whose sink fails (42_encoder.md R150 to R153, R160). -/

namespace Sys2Proof.Machine

/-! ### Words and counters as numbers -/

theorem encOperand_eq_ofNat (w : Width) (v : Word) : encOperand w v = BitVec.ofNat 64 (v.toNat % 2 ^ w.bits) := by
  rw [← encOperand_toNat, BitVec.ofNat_toNat, BitVec.setWidth_eq]

theorem ushiftRight_seven_eq_ofNat (x : Word) : x >>> 7 = BitVec.ofNat 64 (x.toNat / 128) := by
  rw [← toNat_ushiftRight_seven, BitVec.ofNat_toNat, BitVec.setWidth_eq]

theorem countUp_eq_ofNat {c : BitVec 4} (h : c.toNat ≤ 9) : countUp c = BitVec.ofNat 4 (c.toNat + 1) := by
  rw [← countUp_ofNat h, BitVec.ofNat_toNat, BitVec.setWidth_eq]

theorem setWidth_countUp {c : BitVec 4} (h : c.toNat ≤ 9) :
    (countUp c).setWidth 64 = BitVec.ofNat 64 (c.toNat + 1) := by
  have hcount : (countUp c).toNat = c.toNat + 1 := by
    rw [countUp_toNat]
    omega
  rw [← hcount, BitVec.ofNat_toNat]

/-! ### One response of the sink -/

theorem step_encRun_of_inputs {s : State} {p : Ports} {ps : List Ports} (hp : s.phase = .encRun)
    (hin : s.inputs = p :: ps) (hr : p.rst = false) : step s = .next ((encStep p.sink s).facing ps) := by
  rw [← step_facing_encRun hp hr, ← hin, facing_self]

theorem encStep_ack_of_le {s : State} (h : 128 ≤ s.x.toNat) :
    encStep (some .ack) s = { byteWritten (encByte s.x) s with x := s.x >>> 7 } :=
  if_pos ((moreGroups_iff s.x).2 h)

theorem encStep_ack_of_lt {s : State} (h : s.x.toNat < 128) :
    encStep (some .ack) s = finish .ok ((countUp s.count).setWidth 64) 0 (byteWritten (encByte s.x) s) :=
  if_neg fun hmore => Nat.not_le.2 h ((moreGroups_iff s.x).1 hmore)

/-! ### A failing sink -/

/-- An ENC whose sink takes `k` bytes, however it stalls, and then fails: the block ends as it stands after the `k`
acknowledgements (R153, R160). -/
theorem run_enc_sink_fails {w : Width} {v : Word} {k : Nat} {e : IoCode} {qs : List Ports} {p : Ports} (s : State)
    (rest : List Ports) (hk : k < lenCalc (encOperand w v)) (hq : NoReset qs)
    (hsink : qs.filterMap Ports.sink = List.replicate k .ack) (hp : p.rst = false) (hpsink : p.sink = some (.fail e)) :
    run (qs.length + 1) ((encAccept w.code v s).facing (qs ++ p :: rest)) =
      .next ((raiseIo e (afterAcks w (encOperand w v) k s)).facing rest) := by
  have hacks := run_afterAcks (w := w) s (p :: rest) ((Nat.zero_add k).trans_lt hk) hq hsink
  rw [Nat.zero_add] at hacks
  rw [encAccept_eq_afterAcks, run_add _ 1 hacks, run_succ _ (step_facing_encRun rfl hp), hpsink]
  rfl

/-! ### The units use no register of each other (R162) -/

theorem decStep_with_x (r : Option SrcResponse) (s : State) (y : Word) :
    decStep r { s with x := y } = { decStep r s with x := y } := by
  rcases r with _ | b | e
  · rfl
  · cases hb : continues b with
    | true => rw [decStep_byte_of_continues hb, decStep_byte_of_continues hb]; rfl
    | false =>
      rw [decStep_byte_of_terminal hb, decStep_byte_of_terminal hb, decTerminal_eq_finishWith,
        decTerminal_eq_finishWith]
      rfl
  · rfl

theorem encStep_with_acc_idx (r : Option SnkResponse) (s : State) (a : Word) (i : BitVec 4) :
    encStep r { s with acc := a, idx := i } = { encStep r s with acc := a, idx := i } := by
  rcases r with _ | _ | e
  · rfl
  · by_cases hx : s.x.toNat < 128
    · rw [encStep_ack_of_lt hx]
      exact encStep_ack_of_lt (s := { s with acc := a, idx := i }) hx
    · rw [encStep_ack_of_le (Nat.not_lt.1 hx)]
      exact encStep_ack_of_le (s := { s with acc := a, idx := i }) (Nat.not_lt.1 hx)
  · rfl

end Sys2Proof.Machine
end

section
/-! The statements of 42_encoder.md. -/

namespace Sys2Proof.Machine

/-- Settles O26: the byte at the port is `EncByte` of `x`, whose continuation bit is 1 exactly from 128 on. -/
theorem offeredByteIsEncByte : Obligations.OfferedByteIsEncByte :=
  fun _ => ⟨beq_iff_eq, encByte_toNat_of_le, encByte_toNat_of_lt⟩

/-- Settles O27: the byte is counted and written; then `x` loses a group, or the command ends with the count. -/
theorem encAcknowledgedByteStep : Obligations.EncAcknowledgedByteStep := by
  intro s p ps hp hin hr hv hf hcount
  rw [step_encRun_of_inputs hp hin hr, (sink_eq_ack_iff p).2 ⟨hv, hf⟩, ← countUp_eq_ofNat hcount]
  intro t
  by_cases hx : 128 ≤ s.x.toNat
  · rw [if_pos hx, encStep_ack_of_le hx, ← ushiftRight_seven_eq_ofNat]
    rfl
  · rw [if_neg hx, encStep_ack_of_lt (Nat.not_le.1 hx), setWidth_countUp hcount]
    rfl

/-- Settles O29: each acknowledgement adds the next byte of the canonical encoding, and the last one completes. -/
theorem encWritesTheCanonicalEncoding : Obligations.EncWritesTheCanonicalEncoding := by
  intro w v s qs p hidle hq
  rw [← encOperand_eq_ofNat]
  intro x0 hsink hp
  obtain ⟨hqs, hr⟩ := List.forall_mem_append.1 hq
  refine ⟨_, _, exec_enc_idle v hidle,
    run_enc_acknowledged v s [] hqs hsink (hr p (List.mem_singleton_self p)) hp, ?_⟩
  simp only [afterLastAck, hidle]
  rfl

/-- Settles O30: the block at the failure is that after `k` acknowledgements, and a failure writes nothing. -/
theorem encFailureLeavesAPrefix : Obligations.EncFailureLeavesAPrefix := by
  intro w v s qs p k e hidle hq
  rw [← encOperand_eq_ofNat]
  intro x0 hk hsink hp
  obtain ⟨hqs, hr⟩ := List.forall_mem_append.1 hq
  refine ⟨_, _, exec_enc_idle v hidle,
    run_enc_sink_fails s [] hk hqs hsink (hr p (List.mem_singleton_self p)) hp, ?_⟩
  simp only [raiseIo, finish, afterAcks, hidle]
  rfl

/-- Settles O41: a running unit's step commutes with writing the other unit's registers. -/
theorem encoderAndDecoderAreIndependent : Obligations.EncoderAndDecoderAreIndependent := by
  intro s t hr hs
  constructor
  · intro hp y
    rw [step_decRun hr hp] at hs
    cases hs
    rw [step_decRun (s := { s with x := y }) hr hp, decStep_with_x]
    rfl
  · intro hp a i
    rw [step_encRun hr hp] at hs
    cases hs
    rw [step_encRun (s := { s with acc := a, idx := i }) hr hp, encStep_with_acc_idx]
    rfl

/-- Settles O25: the words of R72 and R73 with op 0b01, and the acceptance of each width's ENC. -/
theorem encAcceptance : Obligations.EncAcceptance := by
  intro v s hidle
  have accepted (w : Width) : decode (CmdWord.make 0b01#2 w.code) v = Instr.enc w v ∧
      exec (Instr.enc w v) s = .next
        { s with wsel := w.code, x := BitVec.ofNat 64 (v.toNat % 2 ^ w.bits), count := 0#4, done := false,
                 phase := .encRun } := by
    rw [← encOperand_eq_ofNat]
    refine ⟨decode_enc w v, (exec_enc_idle v hidle).trans ?_⟩
    rw [encAccept, ofCode_code]
    rfl
  simp only [List.forall_mem_cons]
  exact ⟨accepted .w8, accepted .w16, accepted .w32, accepted .w64, nofun⟩

/-- Settles O28: a failure is answered with `finish`, and the offered byte is not written. -/
theorem encSinkFailureStep : Obligations.EncSinkFailureStep := by
  intro s p ps hp hin hr hv hf
  rw [step_encRun_of_inputs hp hin hr, (sink_eq_fail_iff p p.outCode).2 ⟨hv, hf, rfl⟩]
  rfl

end Sys2Proof.Machine
end

section
/-! Where the outcome of a step without reset comes from (60_exceptions.md R182 to R185). -/

namespace Sys2Proof.Machine

/-- Why `t`, reached from `s` without reset, has the outcome it has: it is the previous one, or a command ended in OK,
or one of the errors of R182 to R184 was raised. -/
inductive OutcomeCause (s t : State) : Prop where
  | kept (hsame : SameOutcome s t)
  | ok (hst : t.status = .ok)
  | terminalByte (b : Byte) (hst : t.status = .overflow) (hp : s.phase = .decRun)
      (hsource : (portsNow s).source = some (.byte b)) (hb : continues b = false)
  | sourceFailure (hst : t.status = .ioErr) (hp : s.phase = .decRun)
      (hsource : (portsNow s).source = some (.fail t.ioCode))
  | sinkFailure (hst : t.status = .ioErr) (hp : s.phase = .encRun)
      (hsink : (portsNow s).sink = some (.fail t.ioCode))
  | reservedWord (hst : t.status = .illegalCmd) (hp : s.phase = .idle) (hv : (portsNow s).cmdValid = true)
      (hop : (portsNow s).cmdOp = 0b11#2)

variable {s t : State}

theorem outcomeCause_dropSample (h : OutcomeCause s t) : OutcomeCause s (dropSample t) := by
  cases h with
  | kept hsame => exact .kept (sameOutcome_dropSample hsame)
  | ok hst => exact .ok hst
  | terminalByte b hst hp hsource hb => exact .terminalByte b hst hp hsource hb
  | sourceFailure hst hp hsource => exact .sourceFailure hst hp hsource
  | sinkFailure hst hp hsink => exact .sinkFailure hst hp hsink
  | reservedWord hst hp hv hop => exact .reservedWord hst hp hv hop

theorem outcomeCause_acceptNow (hp : s.phase = .idle) : OutcomeCause s (acceptNow s s) := by
  cases hv : (portsNow s).cmdValid with
  | false =>
    rw [acceptNow_of_not_cmdValid hv]
    exact .kept (.refl s)
  | true =>
    rw [acceptNow_of_cmdValid hv]
    obtain ⟨-, hc⟩ | ⟨-, hc⟩ | ⟨-, hc⟩ | ⟨hop, hc⟩ := command_cases (portsNow s) <;> rw [hc]
    · exact .ok rfl
    · rw [acceptOf_enc]
      exact .kept ⟨rfl, rfl, rfl⟩
    · rw [acceptOf_dec]
      exact .kept ⟨rfl, rfl, rfl⟩
    · exact .reservedWord rfl hp hv hop

theorem outcomeCause_decStep (hp : s.phase = .decRun) : OutcomeCause s (decStep (portsNow s).source s) := by
  obtain ⟨-, h⟩ | ⟨b, -, -, h⟩ | ⟨b, hr, hb, -, h⟩ | ⟨b, -, -, -, -, h⟩ | ⟨e, hr, h⟩ :=
    decStep_cases (portsNow s).source s <;> rw [h]
  · exact .kept (.refl s)
  · exact .kept ⟨rfl, rfl, rfl⟩
  · exact .terminalByte b rfl hp hr hb
  · exact .ok rfl
  · exact .sourceFailure rfl hp hr

theorem outcomeCause_encStep (hp : s.phase = .encRun) : OutcomeCause s (encStep (portsNow s).sink s) := by
  obtain ⟨-, h⟩ | ⟨-, -, h⟩ | ⟨-, -, h⟩ | ⟨e, hr, h⟩ := encStep_cases (portsNow s).sink s <;> rw [h]
  · exact .kept (.refl s)
  · exact .kept ⟨rfl, rfl, rfl⟩
  · exact .ok rfl
  · exact .sinkFailure rfl hp hr

theorem step_outcomeCause (hr : (portsNow s).rst = false) (hs : step s = .next t) : OutcomeCause s t := by
  obtain ⟨hr', -⟩ | ⟨-, hp, rfl⟩ | ⟨-, hp, rfl⟩ | ⟨-, hp, rfl⟩ := step_next_cases hs
  · simp [hr] at hr'
  · exact outcomeCause_dropSample (outcomeCause_acceptNow hp)
  · exact outcomeCause_dropSample (outcomeCause_decStep hp)
  · exact outcomeCause_dropSample (outcomeCause_encStep hp)

end Sys2Proof.Machine
end

section
/-! Steps of two different blocks (60_exceptions.md R192). -/

namespace Sys2Proof.Machine

/-- Steps of two different blocks, one after the other: each block steps from the state it has in the list at first. -/
theorem stepBlock_bind_eq_some_iff {j k : Nat} (hjk : j ≠ k) {bs bs' : List State} :
    (stepBlock j bs).bind (stepBlock k) = some bs' ↔
      ∃ s t u v, (bs[j]? = some s ∧ step s = .next t) ∧ (bs[k]? = some u ∧ step u = .next v) ∧
        bs' = (bs.set j t).set k v := by
  simp only [Option.bind_eq_some_iff, stepBlock_eq_some_iff]
  constructor
  · rintro ⟨_, ⟨s, t, hs, hst, rfl⟩, u, v, hu, huv, rfl⟩
    rw [List.getElem?_set_ne hjk] at hu
    exact ⟨s, t, u, v, ⟨hs, hst⟩, ⟨hu, huv⟩, rfl⟩
  · rintro ⟨s, t, u, v, ⟨hs, hst⟩, ⟨hu, huv⟩, rfl⟩
    exact ⟨_, ⟨s, t, hs, hst, rfl⟩, u, v, by rwa [List.getElem?_set_ne hjk], huv, rfl⟩

theorem stepBlock_bind_eq_some_swap {j k : Nat} (hjk : j ≠ k) {bs bs' : List State}
    (h : (stepBlock j bs).bind (stepBlock k) = some bs') : (stepBlock k bs).bind (stepBlock j) = some bs' := by
  obtain ⟨s, t, u, v, hj, hk, rfl⟩ := (stepBlock_bind_eq_some_iff hjk).1 h
  exact (stepBlock_bind_eq_some_iff hjk.symm).2 ⟨u, v, s, t, hk, hj, List.set_comm t v hjk⟩

end Sys2Proof.Machine
end

section
/-! The statements of 60_exceptions.md. -/

namespace Sys2Proof.Machine

/-- Settles O39: by the cause of the step's outcome. -/
theorem errorsHaveTheirOnlyCauses : Obligations.ErrorsHaveTheirOnlyCauses := by
  intro s t hr hs
  cases step_outcomeCause hr hs with
  | kept hsame =>
    obtain ⟨hst, -, hio⟩ := hsame
    rw [hst]
    exact ⟨.inl, fun h => .inl ⟨h, hio⟩, .inl⟩
  | ok hst =>
    rw [hst]
    exact ⟨nofun, nofun, nofun⟩
  | terminalByte b hst hp hsource hb =>
    rw [hst]
    exact ⟨fun _ => .inr ⟨hp, b, hsource, hb⟩, nofun, nofun⟩
  | sourceFailure hst hp hsource =>
    rw [hst]
    exact ⟨nofun, fun _ => .inr (.inl ⟨hp, hsource⟩), nofun⟩
  | sinkFailure hst hp hsink =>
    rw [hst]
    exact ⟨nofun, fun _ => .inr (.inr ⟨hp, hsink⟩), nofun⟩
  | reservedWord hst hp hv hop =>
    rw [hst]
    exact ⟨nofun, nofun, fun _ => .inr ⟨hp, hv, hop⟩⟩

/-- Settles O43: a block's step writes its own place in the list, and writes to different places commute. -/
theorem blocksAreIndependent : Obligations.BlocksAreIndependent := by
  constructor
  · intro k bs bs' h
    obtain ⟨s, t, hs, hst, rfl⟩ := stepBlock_eq_some_iff.1 h
    obtain ⟨hlt, -⟩ := List.getElem?_eq_some_iff.1 hs
    exact ⟨List.length_set, fun j hj => List.getElem?_set_ne hj.symm, s, t, hs, hst, List.getElem?_set_self hlt⟩
  · intro j k bs hjk
    exact Option.ext fun bs' => ⟨stepBlock_bind_eq_some_swap hjk, stepBlock_bind_eq_some_swap hjk.symm⟩

/-- Settles O13: the words of R72 with op 0b11, and `finish` on the latched command. -/
theorem reservedWordCompletesIllegal : Obligations.ReservedWordCompletesIllegal := by
  refine fun wsel v => ⟨decode_reserved wsel v, fun s hidle => ?_⟩
  rw [exec_eq_atPort, atPort_idle hidle, hidle]
  rfl

end Sys2Proof.Machine
end

section
/-! The statements of 70_reset_and_hazards.md. -/

namespace Sys2Proof.Machine

/-- Settles O6: reset is looked at before the phase, and the registers it leaves are those of R34. -/
theorem resetStepGivesResetValues : Obligations.ResetStepGivesResetValues := by
  intro s p ps hinputs hrst
  have hr : (portsNow s).rst = true := by rwa [portsNow_of_inputs hinputs]
  have hleft : (resetRegisters s).inputs = p :: ps := hinputs
  rw [step_of_rst hr, dropSample_of_inputs hleft]
  rfl

end Sys2Proof.Machine
end
